-- ==== Sys2Proof/Word.lean ====
section
/-! DEFINITION. The word type, the value type, and what crosses the ports of MWA in one transaction. -/

namespace Sys2Proof

/-- `Bit`, 0 or 1: the carry or borrow passed between limbs, `40_word_primitives.md` R46. -/
abbrev Bit := Bool

/-- `Word`: one limb, 64 bits, `00_scope.md` R7. -/
abbrev Word := BitVec 64

/-- `Big`: exactly 33 words, index 0 the least significant, `00_scope.md` R7, `20_memory.md` R21.
Sequences of another length cannot be written (`93_implementation_defined.md` U6). -/
abbrev Big := Vector Word 33

/-- A 2112-bit data port, `20_memory.md` R23. -/
abbrev DataPort := BitVec 2112

/-- The 8-bit command, `30_encoding.md` R34. -/
abbrev Command := BitVec 8

/-- The number of a value register `x0` to `x3`, `10_state.md` R10, `30_encoding.md` R36. -/
abbrev Reg := Fin 4

/-- `Ord`: the three outcomes of the total order, `00_scope.md` R7. -/
inductive Comparison where
  | less
  | equal
  | greater
  deriving DecidableEq, Repr

/-- The response to one command, field by field, `20_memory.md` R25.
It is an output, not state. -/
structure Response where
  ill : Bit
  flag : Bit
  ord : BitVec 2
  nb : BitVec 12
  dout : DataPort
  deriving DecidableEq, Repr, Inhabited

/-- What the host presents for one command, `20_memory.md` R23, `70_reset_and_hazards.md` R109. -/
structure Transaction where
  cmd : Command
  din : DataPort
  rnd : DataPort
  deriving DecidableEq, Repr, Inhabited

/-- One move of the host, `20_memory.md` R33. -/
inductive HostMove where
  /-- A command presented with `RST` released. -/
  | command (t : Transaction)
  /-- `RST` asserted, with or without a command presented at the same time
  (`60_exceptions.md` R93, `70_reset_and_hazards.md` R100). -/
  | reset (presented : Option Transaction)
  deriving DecidableEq, Repr

/-- One entry of the observation of a run, `70_reset_and_hazards.md` R109. -/
inductive Answer where
  /-- The response MWA gave to a command it performed, or to an illegal one. -/
  | response (r : Response)
  /-- What stood on the response ports for a command presented while `RST` was asserted: not defined
  (R100), any value (`93_implementation_defined.md` U10). -/
  | unspecified (r : Response)
  deriving DecidableEq, Repr

end Sys2Proof
end

