-- ==== Sys2Proof/Syntax.lean ====
section
/-! DEFINITION. The 14 commands, one constructor per row of the opcode table (`30_encoding.md` R38), and the fields of a
command byte (R35). -/

namespace Sys2Proof

/-- The commands of MWA. `ra` is the receiver, `rb` the other operand (`30_encoding.md` R35). No command carries an
immediate: data travels on `DIN` or `RND` in the same transaction (R36). -/
inductive Instr where
  | isodd (ra : Reg)
  | iseven (ra : Reg)
  | iszero (ra : Reg)
  | div2 (ra : Reg)
  | mul2 (ra : Reg)
  | nbits (ra : Reg)
  | add (ra rb : Reg)
  | sub (ra rb : Reg)
  | cmp (ra rb : Reg)
  | eq (ra rb : Reg)
  | rand (ra : Reg)
  | load (ra : Reg)
  | widen (ra : Reg)
  | read (ra : Reg)
  deriving DecidableEq, Repr

/-- The two formats of `30_encoding.md` R35: `u` names one register, `b` two. -/
inductive Format where
  | u
  | b
  deriving DecidableEq, Repr

/-- The three fields every command byte has, `30_encoding.md` R35. -/
structure CommandFields where
  op : BitVec 4
  ra : BitVec 2
  rb : BitVec 2
  deriving DecidableEq, Repr

end Sys2Proof
end

