-- ==== Sys2Proof/WellFormed.lean ====
section
/-! DEFINITION. When the fields of a command spell a command. A term of `Instr` has no field that could be out of range
(a register number is 2 bits, `20_memory.md` R20), so the two checks are on the fields of the byte. -/

namespace Sys2Proof

/-- Opcodes `0xE` and `0xF` are reserved, `30_encoding.md` R40. -/
def CommandFields.opDefined (f : CommandFields) : Bool :=
  decide (f.op.toNat < 14)

/-- Format B is used by `ADD`, `SUB`, `CMP` and `EQ` alone (opcodes 6 to 9), `30_encoding.md` R35, R38. -/
def CommandFields.formatB (f : CommandFields) : Bool :=
  decide (6 ≤ f.op.toNat) && decide (f.op.toNat ≤ 9)

/-- In format U the `rb` field must be `00`, `30_encoding.md` R41. -/
def CommandFields.rbAllowed (f : CommandFields) : Bool :=
  f.formatB || decide (f.rb = 0#2)

/-- The fields spell a command, `30_encoding.md` R37. -/
def CommandFields.wellFormed (f : CommandFields) : Bool :=
  f.opDefined && f.rbAllowed

end Sys2Proof
end

