-- ==== Sys2Proof/Decode.lean ====
section
/-! DEFINITION. The decoder, total on the 256 command bytes (`30_encoding.md` R37), the encoder, the opcode map with its
match and mask columns (R38), and the written form of a command (R44). -/

namespace Sys2Proof

/-- Why a byte spells no command. -/
inductive DecodeError where
  /-- `op` is `0xE` or `0xF`, `30_encoding.md` R40. -/
  | reservedOpcode (op : BitVec 4)
  /-- A format-U opcode with `rb` other than `00`, `30_encoding.md` R41. -/
  | reservedRb (op : BitVec 4) (rb : BitVec 2)
  deriving DecidableEq, Repr

/-- `op = CMD[7:4]`, `ra = CMD[3:2]`, `rb = CMD[1:0]`, `30_encoding.md` R35. -/
def splitFields (c : Command) : CommandFields :=
  { op := c.extractLsb' 4 4, ra := c.extractLsb' 2 2, rb := c.extractLsb' 0 2 }

/-- The byte with those three fields. -/
def joinFields (f : CommandFields) : Command :=
  f.op ++ f.ra ++ f.rb

/-- A 2-bit field is a register number as it stands, `30_encoding.md` R36. -/
def regOfField (b : BitVec 2) : Reg :=
  ⟨b.toNat, b.isLt⟩

/-- A register number as a 2-bit field. -/
def fieldOfReg (r : Reg) : BitVec 2 :=
  BitVec.ofNat 2 r.val

/-- A format-U opcode: `rb` must be `00`, `30_encoding.md` R41. -/
def decodeU (mk : Reg → Instr) (f : CommandFields) : Except DecodeError Instr :=
  if f.rb = 0#2 then .ok (mk (regOfField f.ra)) else .error (.reservedRb f.op f.rb)

/-- A format-B opcode: any `ra` and `rb`, `30_encoding.md` R35. -/
def decodeB (mk : Reg → Reg → Instr) (f : CommandFields) : Except DecodeError Instr :=
  .ok (mk (regOfField f.ra) (regOfField f.rb))

/-- The decoder, the procedure of `30_encoding.md` R37 over the opcode map of R38. -/
def decode (c : Command) : Except DecodeError Instr :=
  let f := splitFields c
  match f.op with
  | 0x0#4 => decodeU .isodd f
  | 0x1#4 => decodeU .iseven f
  | 0x2#4 => decodeU .iszero f
  | 0x3#4 => decodeU .div2 f
  | 0x4#4 => decodeU .mul2 f
  | 0x5#4 => decodeU .nbits f
  | 0x6#4 => decodeB .add f
  | 0x7#4 => decodeB .sub f
  | 0x8#4 => decodeB .cmp f
  | 0x9#4 => decodeB .eq f
  | 0xA#4 => decodeU .rand f
  | 0xB#4 => decodeU .load f
  | 0xC#4 => decodeU .widen f
  | 0xD#4 => decodeU .read f
  | op => .error (.reservedOpcode op)

/-- The fields of a command, from the `op` column of `30_encoding.md` R38; format U has `rb = 00`. -/
def encodeFields : Instr → CommandFields
  | .isodd ra => ⟨0x0#4, fieldOfReg ra, 0#2⟩
  | .iseven ra => ⟨0x1#4, fieldOfReg ra, 0#2⟩
  | .iszero ra => ⟨0x2#4, fieldOfReg ra, 0#2⟩
  | .div2 ra => ⟨0x3#4, fieldOfReg ra, 0#2⟩
  | .mul2 ra => ⟨0x4#4, fieldOfReg ra, 0#2⟩
  | .nbits ra => ⟨0x5#4, fieldOfReg ra, 0#2⟩
  | .add ra rb => ⟨0x6#4, fieldOfReg ra, fieldOfReg rb⟩
  | .sub ra rb => ⟨0x7#4, fieldOfReg ra, fieldOfReg rb⟩
  | .cmp ra rb => ⟨0x8#4, fieldOfReg ra, fieldOfReg rb⟩
  | .eq ra rb => ⟨0x9#4, fieldOfReg ra, fieldOfReg rb⟩
  | .rand ra => ⟨0xA#4, fieldOfReg ra, 0#2⟩
  | .load ra => ⟨0xB#4, fieldOfReg ra, 0#2⟩
  | .widen ra => ⟨0xC#4, fieldOfReg ra, 0#2⟩
  | .read ra => ⟨0xD#4, fieldOfReg ra, 0#2⟩

/-- The byte of a command, `30_encoding.md` R39. -/
def encode (i : Instr) : Command :=
  joinFields (encodeFields i)

/-- The fields of the instruction's own byte pass the checks of `WellFormed.lean`. -/
def Instr.wellFormed (i : Instr) : Bool :=
  (encodeFields i).wellFormed

/-- The mnemonic of a command, `30_encoding.md` R38. -/
def mnemonic : Instr → String
  | .isodd _ => "ISODD"
  | .iseven _ => "ISEVEN"
  | .iszero _ => "ISZERO"
  | .div2 _ => "DIV2"
  | .mul2 _ => "MUL2"
  | .nbits _ => "NBITS"
  | .add _ _ => "ADD"
  | .sub _ _ => "SUB"
  | .cmp _ _ => "CMP"
  | .eq _ _ => "EQ"
  | .rand _ => "RAND"
  | .load _ => "LOAD"
  | .widen _ => "WIDEN"
  | .read _ => "READ"

/-- One row of the opcode map of `30_encoding.md` R38. -/
structure OpcodeRow where
  mnemonic : String
  format : Format
  matchBits : Command
  mask : Command
  deriving DecidableEq, Repr

/-- The opcode map of `30_encoding.md` R38, its match and mask columns as the spec prints them. -/
def opcodeMap : List OpcodeRow :=
  [ ⟨"ISODD", .u, 0x00#8, 0xF3#8⟩,
    ⟨"ISEVEN", .u, 0x10#8, 0xF3#8⟩,
    ⟨"ISZERO", .u, 0x20#8, 0xF3#8⟩,
    ⟨"DIV2", .u, 0x30#8, 0xF3#8⟩,
    ⟨"MUL2", .u, 0x40#8, 0xF3#8⟩,
    ⟨"NBITS", .u, 0x50#8, 0xF3#8⟩,
    ⟨"ADD", .b, 0x60#8, 0xF0#8⟩,
    ⟨"SUB", .b, 0x70#8, 0xF0#8⟩,
    ⟨"CMP", .b, 0x80#8, 0xF0#8⟩,
    ⟨"EQ", .b, 0x90#8, 0xF0#8⟩,
    ⟨"RAND", .u, 0xA0#8, 0xF3#8⟩,
    ⟨"LOAD", .u, 0xB0#8, 0xF3#8⟩,
    ⟨"WIDEN", .u, 0xC0#8, 0xF3#8⟩,
    ⟨"READ", .u, 0xD0#8, 0xF3#8⟩ ]

/-- "A command `c` is that row's command iff `(c AND mask) = match`", `30_encoding.md` R38. -/
def OpcodeRow.covers (row : OpcodeRow) (c : Command) : Bool :=
  decide (c &&& row.mask = row.matchBits)

/-- The mnemonics of the rows that cover a byte: one for a legal byte, none for an illegal one. -/
def mnemonicsCovering (c : Command) : List String :=
  (opcodeMap.filter fun row => row.covers c).map OpcodeRow.mnemonic

/-- The name of a register in assembler, `30_encoding.md` R44. -/
def regName (r : Reg) : String :=
  "x" ++ toString r.val

/-- The registers a command names, the receiver first. -/
def regNames : Instr → String
  | .isodd ra => regName ra
  | .iseven ra => regName ra
  | .iszero ra => regName ra
  | .div2 ra => regName ra
  | .mul2 ra => regName ra
  | .nbits ra => regName ra
  | .add ra rb => regName ra ++ ", " ++ regName rb
  | .sub ra rb => regName ra ++ ", " ++ regName rb
  | .cmp ra rb => regName ra ++ ", " ++ regName rb
  | .eq ra rb => regName ra ++ ", " ++ regName rb
  | .rand ra => regName ra
  | .load ra => regName ra
  | .widen ra => regName ra
  | .read ra => regName ra

/-- A command as the spec writes it, mnemonic and registers, `30_encoding.md` R44. -/
def assembly (i : Instr) : String :=
  mnemonic i ++ " " ++ regNames i

/-- A row of `spec/opcode_table.json` as the host numbers it: there is one command length, 8 bits (`30_encoding.md` R34), so
a longer word is no command (notes/assumptions/14.md). -/
def decodeTableWord (nbits w : Nat) : Option Instr :=
  if nbits ≤ 8 then (decode (BitVec.ofNat 8 (w % 2 ^ nbits))).toOption else none

end Sys2Proof
end

