-- ==== Sys2Proof/Config.lean ====
section
/-! DEFINITION. The parameters of MWA (`00_scope.md` R6) and the free values the spec leaves open. -/

namespace Sys2Proof

/-- `W`, bits per limb. -/
abbrev Config.wordBits : Nat := 64

/-- `N`, limbs per value. -/
abbrev Config.limbs : Nat := 33

/-- `BITS`, bits per value. -/
abbrev Config.bits : Nat := 2112

/-- `MODULUS`: every stored result is reduced modulo this. -/
abbrev Config.modulus : Nat := 2 ^ 2112

/-- `RAND_BITS`: a randomised value is below `2 ^ 2048`. -/
abbrev Config.randBits : Nat := 2048

/-- `NREG`, the number of value registers. -/
abbrev Config.registers : Nat := 4

/-- `CMDW`, bits in a command. -/
abbrev Config.commandBits : Nat := 8

/-- `NBW`, bits of the `NB` response field. -/
abbrev Config.bitLengthBits : Nat := 12

/-- FREE VALUE (`93_implementation_defined.md` U1): what register `r` holds after reset event `draw`, until a command
writes it. `60_exceptions.md` R99 allows a free draw of 2112 bits per register at reset, and forbids zero.
DESIGN CHOICE, notes/assumptions/1.md. -/
opaque Config.unconstructed (draw : Nat) (r : Reg) : Big

/-- FREE VALUE (`93_implementation_defined.md` U10): what stands on the response ports when a command is presented during
reset event `draw`. DESIGN CHOICE, notes/assumptions/6.md. -/
opaque Config.droppedResponse (draw : Nat) : Response

/-- FREE VALUE: what the host drives on `CMD`, `DIN` and `RND` before its first transaction.
DESIGN CHOICE, notes/assumptions/10.md. -/
opaque Config.undrivenPorts : Transaction

end Sys2Proof
end

