-- ==== Sys2Proof/Machine/State.lean ====
section
/-! DEFINITION. The state of MWA, as plain data, and its value right after reset. -/

namespace Sys2Proof.Machine

/-- Why a run stops with a fault. -/
inductive Fault where
  /-- `60_exceptions.md` R99: a command read register `r`, which no `LOAD`, `WIDEN` or `RAND` has written since reset.
  A model-level outcome, not the hardware's: raised by the strict reading of `Safety.lean` (`strictExec`, `strictStep`) alone.
  `exec` and `step` never raise it: they take R99's alternative, a free draw per register at reset, and go on.
  Safe: the strict reading stops where the hardware computes on an unspecified value. -/
  | readOfUnconstructedRegister (r : Reg)
  deriving DecidableEq, Repr

/-- Why the model refuses an instruction. -/
inductive Refusal where
  /-- Raised by an arm of `exec` whose instruction has no meaning yet, by name. No arm of this model raises it.
  Safe: the model stops. -/
  | notModelled (mnemonic : String)
  deriving DecidableEq, Repr

/-- The machine. The architectural state of `10_state.md` R10 is `regs`, and nothing else survives from one command to the
next. `constructed` is the spec's own notion of R19; `ports` and `pending` are the host's side of the interface
(`20_memory.md` R23, `70_reset_and_hazards.md` R109); `answers` and `rndTaken` are the observation of a run (R109, `20_memory.md`
R28), which no command reads; `draws` counts the reset events and indexes the free values (`Config.lean`). -/
structure State where
  regs : Vector Big 4
  constructed : Vector Bool 4
  ports : Transaction
  pending : List HostMove
  answers : List Answer
  rndTaken : Nat
  draws : Nat
  deriving DecidableEq, Repr

/-- "every one of `x0..x3` holds an unspecified value" after reset event `draw`, `70_reset_and_hazards.md` R101. -/
def unspecifiedRegs (draw : Nat) : Vector Big 4 :=
  #v[Config.unconstructed draw 0, Config.unconstructed draw 1, Config.unconstructed draw 2, Config.unconstructed draw 3]

/-- No register is constructed, `70_reset_and_hazards.md` R101. -/
def noneConstructed : Vector Bool 4 :=
  #v[false, false, false, false]

/-- The machine right after reset (`70_reset_and_hazards.md` R101), before the host has presented anything. -/
def State.reset : State :=
  { regs := unspecifiedRegs 0
    constructed := noneConstructed
    ports := Config.undrivenPorts
    pending := []
    answers := []
    rndTaken := 0
    draws := 0 }

end Sys2Proof.Machine
end

