-- ==== Sys2Proof/Machine/Operands.lean ====
section
/-! DEFINITION. The operand forms of MWA: a register by number, the whole of a data port, the low word of `DIN`
(`30_encoding.md` R36), with the number a value stands for (`00_scope.md` R7) and the packing of a value on a port
(`20_memory.md` R24). -/

namespace Sys2Proof.Machine

/-- `x[r]`, a read of all 33 limbs, `00_scope.md` R9. -/
def readReg (r : Reg) (s : State) : Big :=
  s.regs.get r

/-- The number a list of limbs stands for, the least significant limb first. -/
def valLimbs : List Word → Nat
  | [] => 0
  | w :: ws => w.toNat + 2 ^ 64 * valLimbs ws

/-- `val(v)`, the sum of `v.w[i] * 2^(64*i)`, `00_scope.md` R7, `10_state.md` R11. -/
def val (v : Big) : Nat :=
  valLimbs v.toList

/-- `big(n)`, with limb `i` equal to `floor(n / 2^(64*i)) mod 2^64`, `00_scope.md` R7. -/
def big (n : Nat) : Big :=
  ⟨⟨(List.range 33).map fun i => BitVec.ofNat 64 (n / 2 ^ (64 * i))⟩, by simp⟩

/-- Bit `k` of a value: bit `k mod 64` of limb `floor(k/64)`, `00_scope.md` R8. -/
def bitOf (v : Big) (k : Nat) : Bool :=
  ((v.toList[k / 64]?).getD 0#64).getLsbD (k % 64)

/-- Limb `i` of a port is port bits `64*i+63` down to `64*i`, `20_memory.md` R24. -/
def portLimb (p : DataPort) (i : Nat) : Word :=
  p.extractLsb' (64 * i) 64

/-- A port read as a `Big`, `20_memory.md` R24. -/
def bigOfPort (p : DataPort) : Big :=
  ⟨⟨(List.range 33).map (portLimb p)⟩, by simp⟩

/-- Limbs side by side, the first one least significant. -/
def packLimbs : List Word → DataPort
  | [] => 0#2112
  | w :: ws => (packLimbs ws <<< 64) ||| w.setWidth 2112

/-- A `Big` driven on a port, `20_memory.md` R24. -/
def portOfBig (v : Big) : DataPort :=
  packLimbs v.toList

/-- `DIN[63:0]` placed in limb 0 with limbs 1 to 32 zero: zero extension, `30_encoding.md` R36. -/
def bigOfWord (w : Word) : Big :=
  ⟨⟨w :: List.replicate 32 0#64⟩, by simp⟩

/-- `DIN` read whole, the operand of `LOAD`. -/
def dinBig (s : State) : Big :=
  bigOfPort s.ports.din

/-- `DIN[63:0]`, the operand of `WIDEN`. -/
def dinWord (s : State) : Word :=
  s.ports.din.extractLsb' 0 64

/-- `RND` read whole, the operand of `RAND`. -/
def rndBig (s : State) : Big :=
  bigOfPort s.ports.rnd

/-- One entry `i..j: v` of a limb list, `30_encoding.md` R44; `i: v` is the range from `i` to `i`. -/
structure LimbEntry where
  first : Nat
  last : Nat
  limb : Word
  deriving DecidableEq, Repr

/-- Limb `i` of a limb list: what the entry that lists it says, 0 if none does, `30_encoding.md` R44.
DESIGN CHOICE, notes/assumptions/18.md: of several entries that list it the last one counts; R44 says nothing of overlap. -/
def limbOfEntries (i : Nat) : List LimbEntry → Word → Word
  | [], w => w
  | e :: es, w => limbOfEntries i es (if e.first ≤ i ∧ i ≤ e.last then e.limb else w)

/-- The `Big` a limb list writes, `30_encoding.md` R44. -/
def bigOfEntries (es : List LimbEntry) : Big :=
  ⟨⟨(List.range 33).map fun i => limbOfEntries i es 0#64⟩, by simp⟩

end Sys2Proof.Machine
end

