-- ==== Sys2Proof/Machine/Flags.lean ====
section
/-! DEFINITION. The response of a command, field by field (`20_memory.md` R25): every field a command does not produce is 0. -/

namespace Sys2Proof.Machine

/-- The response in which nothing is produced: `ILL = 0` and every other field 0. -/
def idleResponse : Response :=
  { ill := false, flag := false, ord := 0#2, nb := 0#12, dout := 0#2112 }

/-- A response that carries a boolean result in `FLAG`, 1 for true (`92_eei_decisions.md` D8). -/
def flagResponse (b : Bit) : Response :=
  { idleResponse with flag := b }

/-- The codes of the three outcomes: `Equal = 00`, `Greater = 01`, `Less = 11`, `45_compare.md` R73. -/
def ordCode : Comparison → BitVec 2
  | .equal => 0b00#2
  | .greater => 0b01#2
  | .less => 0b11#2

/-- A response that carries a comparison in `ORD`. -/
def ordResponse (o : Comparison) : Response :=
  { idleResponse with ord := ordCode o }

/-- A response that carries a bit length in `NB`, 12 bits (`43_bitlength.md` R62). -/
def nbResponse (n : Nat) : Response :=
  { idleResponse with nb := BitVec.ofNat 12 n }

/-- A response that carries a value on `DOUT`, `46_construct_read.md` R82. -/
def doutResponse (v : Big) : Response :=
  { idleResponse with dout := portOfBig v }

/-- The response to an illegal command: `ILL = 1` and every other field 0, `60_exceptions.md` R90. -/
def illegalResponse : Response :=
  { idleResponse with ill := true }

/-- `RESP[15:0] = (ILL, FLAG, ORD[1:0], NB[11:0])`, `ILL` in bit 15, `20_memory.md` R25. -/
def packResp (r : Response) : BitVec 16 :=
  BitVec.ofBool r.ill ++ BitVec.ofBool r.flag ++ r.ord ++ r.nb

/-- The outcome a 2-bit `ORD` code stands for; `10` is never driven (`20_memory.md` R25). -/
def ordOfCode (c : BitVec 2) : Option Comparison :=
  if c = 0b00#2 then some .equal
  else if c = 0b01#2 then some .greater
  else if c = 0b11#2 then some .less
  else none

end Sys2Proof.Machine
end

