-- ==== Sys2Proof/Machine/Ops.lean ====
section
/-! DEFINITION. The shared operations: writing and constructing a register, driving the response, the one error
`IllegalCommand`, the reset event, and taking the host's next move. -/

namespace Sys2Proof.Machine

/-- `x[r] <- v`: all 33 limbs in one step, no other register, `10_state.md` R12, `20_memory.md` R27. -/
def writeReg (r : Reg) (v : Big) (s : State) : State :=
  { s with regs := s.regs.set r.val v r.isLt }

/-- A register counts as constructed from now on, `10_state.md` R19. -/
def markConstructed (r : Reg) (s : State) : State :=
  { s with constructed := s.constructed.set r.val true r.isLt }

/-- Drive the response of one command, `20_memory.md` R25; it joins the observation of the run, `70_reset_and_hazards.md` R109. -/
def answer (r : Response) (s : State) : State :=
  { s with answers := s.answers ++ [.response r] }

/-- Take `n` words from the randomness source, `20_memory.md` R28. -/
def takeRandomWords (n : Nat) (s : State) : State :=
  { s with rndTaken := s.rndTaken + n }

/-- The end of a command that only answers. -/
def respond (r : Response) (s : State) : Host.Outcome State Fault Refusal :=
  .next (answer r s)

/-- The end of a command that writes its receiver and answers. -/
def update (ra : Reg) (v : Big) (r : Response) (s : State) : Host.Outcome State Fault Refusal :=
  .next (answer r (writeReg ra v s))

/-- The end of a command that constructs its register: it writes all 33 limbs, reads nothing of the old content, and
answers nothing, `46_construct_read.md` R78. -/
def construct (ra : Reg) (v : Big) (s : State) : Host.Outcome State Fault Refusal :=
  .next (answer idleResponse (markConstructed ra (writeReg ra v s)))

/-- `raise IllegalCommand`, the one error of MWA (`60_exceptions.md` R90, R91): no register read or written, nothing taken
from `RND`, nothing saved, no transfer of control (R94); the answer is `ILL = 1`. -/
def takeIllegalCommand (s : State) : Host.Outcome State Fault Refusal :=
  .next (answer illegalResponse s)

/-- What the response ports show for a command presented during a reset event: not defined
(`70_reset_and_hazards.md` R100), so a free value. -/
def droppedAnswers (draw : Nat) : Option Transaction → List Answer
  | none => []
  | some _ => [.unspecified (Config.droppedResponse draw)]

/-- The reset event (`70_reset_and_hazards.md` R100, R101): every register unspecified and unconstructed; a command presented at
the same time is not performed and reads, writes and consumes nothing. -/
def takeReset (presented : Option Transaction) (s : State) : State :=
  { s with
    regs := unspecifiedRegs (s.draws + 1)
    constructed := noneConstructed
    answers := s.answers ++ droppedAnswers (s.draws + 1) presented
    draws := s.draws + 1 }

/-- What the host does next. -/
inductive NextMove where
  /-- No move is left: MWA waits for a command that does not come, `70_reset_and_hazards.md` R109. -/
  | nothing
  /-- `RST` is asserted; the state has the move taken from the list. -/
  | reset (presented : Option Transaction) (s : State)
  /-- A transaction is presented; the state has its ports sampled. -/
  | command (s : State)
  deriving DecidableEq, Repr

/-- Take the host's next move: the ports are sampled once per command, `70_reset_and_hazards.md` R104. -/
def nextMove (s : State) : NextMove :=
  match s.pending with
  | [] => .nothing
  | .reset presented :: rest => .reset presented { s with pending := rest }
  | .command t :: rest => .command { s with pending := rest, ports := t }

/-- `s` with a transaction placed as the host's next move: the byte `c`, the data ports as they stand. -/
def presentCommand (c : Command) (s : State) : State :=
  { s with pending := .command { s.ports with cmd := c } :: s.pending }

end Sys2Proof.Machine
end

