-- ==== Sys2Proof/Machine/WordCells.lean ====
section
/-! DEFINITION. The leaf cells `adc64` and `sbb64` (`40_word_primitives.md` R47, R48) and their flag forms (R50). -/

namespace Sys2Proof.Machine

/-- The add-with-carry cell, `40_word_primitives.md` R47: `s = a + b + c` not reduced, `r = s mod 2^64`, `c' = 1` exactly when
`s >= 2^64`. -/
def adc64 (a b : Word) (c : Bit) : Word × Bit :=
  let s := a.toNat + b.toNat + c.toNat
  (BitVec.ofNat 64 s, decide (2 ^ 64 ≤ s))

/-- The subtract-with-borrow cell, `40_word_primitives.md` R48: `d = a - b - c` as an integer, `r` its residue modulo `2^64`,
`c' = 1` exactly when `d < 0`. -/
def sbb64 (a b : Word) (c : Bit) : Word × Bit :=
  let d : Int := (a.toNat : Int) - (b.toNat : Int) - (c.toNat : Int)
  (BitVec.ofInt 64 d, decide (d < 0))

/-- A bit as a word. -/
def wordOfBit (c : Bit) : Word :=
  BitVec.ofNat 64 c.toNat

/-- The flag form of `adc64`, its result and its two partial flags, `40_word_primitives.md` R50. -/
def adc64Flags (a b : Word) (c : Bit) : Word × Bit × Bit :=
  let t := a + b
  let r := t + wordOfBit c
  (r, decide (t < a), decide (r < t))

/-- The flag form of `sbb64`, its result and its two partial flags, `40_word_primitives.md` R50. -/
def sbb64Flags (a b : Word) (c : Bit) : Word × Bit × Bit :=
  let t := a - b
  let r := t - wordOfBit c
  (r, decide (a < b), decide (t < wordOfBit c))

end Sys2Proof.Machine
end

