-- ==== Sys2Proof/Machine/AddSub.lean ====
section
/-! DEFINITION. The adder and the subtractor `ADD` and `SUB`: chains of 33 leaf cells, limb 0 first (`44_addsub.md`). -/

namespace Sys2Proof.Machine

/-- A chain of leaf cells over two lists of limbs, the carry or borrow of each cell feeding the next
(`44_addsub.md` R65): the result limbs and the last carry. -/
def chain (cell : Word → Word → Bit → Word × Bit) : List Word → List Word → Bit → List Word × Bit
  | a :: as, b :: bs, c =>
    let low := cell a b c
    let high := chain cell as bs low.2
    (low.1 :: high.1, high.2)
  | _, _, c => ([], c)

theorem chain_length (cell : Word → Word → Bit → Word × Bit) (as bs : List Word) (c : Bit) :
    (chain cell as bs c).1.length = min as.length bs.length := by
  induction as generalizing bs c with
  | nil => simp [chain]
  | cons a as ih => cases bs <;> simp [chain, ih]

/-- The limbs of `a` and `b` through a chain that starts with a carry of 0, `44_addsub.md` R65. -/
def chainBig (cell : Word → Word → Bit → Word × Bit) (a b : Big) : Big :=
  ⟨⟨(chain cell a.toList b.toList false).1⟩, by simp [chain_length]⟩

/-- The carry out of limb 32 of that chain. -/
def chainOut (cell : Word → Word → Bit → Word × Bit) (a b : Big) : Bit :=
  (chain cell a.toList b.toList false).2

/-- `ADD xa, xb`, `44_addsub.md` R66: both operands are read before the write. -/
def execAdd (ra rb : Reg) (s : State) : Host.Outcome State Fault Refusal :=
  let a := readReg ra s
  let b := readReg rb s
  update ra (chainBig adc64 a b) (flagResponse (chainOut adc64 a b)) s

/-- `SUB xa, xb`, `44_addsub.md` R67: the receiver is the minuend. -/
def execSub (ra rb : Reg) (s : State) : Host.Outcome State Fault Refusal :=
  let a := readReg ra s
  let b := readReg rb s
  update ra (chainBig sbb64 a b) (flagResponse (chainOut sbb64 a b)) s

end Sys2Proof.Machine
end

