-- ==== Sys2Proof/Machine/BitLength.lean ====
section
/-! DEFINITION. The bit-length encoder `NBITS` (`43_bitlength.md`). -/

namespace Sys2Proof.Machine

/-- The number of consecutive 0 bits of `w` counted from bit `k - 1` downward. -/
def clzBelow (w : Word) : Nat → Nat
  | 0 => 0
  | k + 1 => if w.getLsbD k then 0 else 1 + clzBelow w k

/-- `clz64(w)`, the number of consecutive 0 bits counted from bit 63 downward, `43_bitlength.md` R61. -/
def clz64 (w : Word) : Nat :=
  clzBelow w 64

/-- The scan of `43_bitlength.md` R62 over the limbs, the most significant first, with the count so far: the limb that has a
set bit contributes its own leading zeros and stops the scan. -/
def nbitsScan : List Word → Nat → Nat
  | [], n => n
  | w :: ws, n => if clz64 w ≠ 64 then n - clz64 w else nbitsScan ws (n - clz64 w)

/-- The bit length of a value, `43_bitlength.md` R62. -/
def bitLength (v : Big) : Nat :=
  nbitsScan v.toList.reverse 2112

/-- `NBITS xa`, `43_bitlength.md` R62. -/
def execNbits (ra : Reg) (s : State) : Host.Outcome State Fault Refusal :=
  respond (nbResponse (bitLength (readReg ra s))) s

end Sys2Proof.Machine
end

