-- ==== Sys2Proof/Machine/Compare.lean ====
section
/-! DEFINITION. The magnitude comparator `CMP` and the equality test `EQ` (`45_compare.md`), with the tree form of R76. -/

namespace Sys2Proof.Machine

/-- The scan of `45_compare.md` R73 over the limbs of both operands, the most significant first: the first limbs that differ
decide, compared unsigned. -/
def compareScan : List Word → List Word → Comparison
  | a :: as, b :: bs => if a < b then .less else if b < a then .greater else compareScan as bs
  | _, _ => .equal

/-- The three-way comparison of two values, `45_compare.md` R73. -/
def compareBig (a b : Big) : Comparison :=
  compareScan a.toList.reverse b.toList.reverse

/-- The loop of `45_compare.md` R74, with the answer so far. -/
def equalScan : List Word → List Word → Bit → Bit
  | a :: as, b :: bs, e => equalScan as bs (if a ≠ b then false else e)
  | _, _, e => e

/-- Equality of all 33 limbs, `45_compare.md` R74. -/
def equalBit (a b : Big) : Bit :=
  equalScan a.toList b.toList true

/-- `CMP xa, xb`, `45_compare.md` R73. -/
def execCmp (ra rb : Reg) (s : State) : Host.Outcome State Fault Refusal :=
  respond (ordResponse (compareBig (readReg ra s) (readReg rb s))) s

/-- `EQ xa, xb`, `45_compare.md` R74. -/
def execEq (ra rb : Reg) (s : State) : Host.Outcome State Fault Refusal :=
  respond (flagResponse (equalBit (readReg ra s) (readReg rb s))) s

/-- The unsigned comparison of two limbs, `45_compare.md` R76. -/
def cmp64 (a b : Word) : Comparison :=
  if a < b then .less else if b < a then .greater else .equal

/-- The operator of `45_compare.md` R76: the more significant answer unless it is `Equal`. -/
def decideBy (hi lo : Comparison) : Comparison :=
  match hi with
  | .equal => lo
  | .less => .less
  | .greater => .greater

/-- The 33 per-limb answers, limb 32 first, `45_compare.md` R76. -/
def limbAnswers (a b : Big) : List Comparison :=
  List.zipWith cmp64 a.toList.reverse b.toList.reverse

/-- A bracketing of a sequence of answers, the more significant group on the left, `45_compare.md` R76. -/
inductive CompareTree where
  | leaf (c : Comparison)
  | node (hi lo : CompareTree)
  deriving DecidableEq, Repr

/-- The answers a tree combines, most significant first. -/
def treeLeaves : CompareTree → List Comparison
  | .leaf c => [c]
  | .node hi lo => treeLeaves hi ++ treeLeaves lo

/-- What a tree of `decideBy` answers. -/
def treeAnswer : CompareTree → Comparison
  | .leaf c => c
  | .node hi lo => decideBy (treeAnswer hi) (treeAnswer lo)

end Sys2Proof.Machine
end

