-- ==== Sys2Proof/Machine/ConstructRead.lean ====
section
/-! DEFINITION. The construction and read paths `RAND`, `LOAD`, `WIDEN` and `READ` (`46_construct_read.md`). -/

namespace Sys2Proof.Machine

/-- The 33 words of the source with the headroom limb overwritten by 0, `46_construct_read.md` R79. -/
def randomBig (words : Big) : Big :=
  words.set 32 0#64

/-- `RAND xa`, `46_construct_read.md` R79: 33 words are taken from the source, the 33rd too. -/
def execRand (ra : Reg) (s : State) : Host.Outcome State Fault Refusal :=
  construct ra (randomBig (rndBig s)) (takeRandomWords 33 s)

/-- `LOAD xa`, `46_construct_read.md` R80. -/
def execLoad (ra : Reg) (s : State) : Host.Outcome State Fault Refusal :=
  construct ra (dinBig s) s

/-- `WIDEN xa`, `46_construct_read.md` R81. -/
def execWiden (ra : Reg) (s : State) : Host.Outcome State Fault Refusal :=
  construct ra (bigOfWord (dinWord s)) s

/-- `READ xa`, `46_construct_read.md` R82. -/
def execRead (ra : Reg) (s : State) : Host.Outcome State Fault Refusal :=
  respond (doutResponse (readReg ra s)) s

end Sys2Proof.Machine
end

