-- ==== Sys2Proof/Machine/Predicates.lean ====
section
/-! DEFINITION. The parity and zero tests `ISODD`, `ISEVEN`, `ISZERO` (`41_predicates.md`). -/

namespace Sys2Proof.Machine

/-- Bit 0 of limb 0, `41_predicates.md` R53. -/
def oddBit (v : Big) : Bit :=
  v[0].getLsbD 0

/-- The loop of `41_predicates.md` R55 over the limbs, with the answer so far. -/
def zeroScan : List Word → Bit → Bit
  | [], z => z
  | w :: ws, z => zeroScan ws (if w ≠ 0#64 then false else z)

/-- Every one of the 33 limbs is 0, `41_predicates.md` R55. -/
def zeroBit (v : Big) : Bit :=
  zeroScan v.toList true

/-- `ISODD xa`, `41_predicates.md` R53. -/
def execIsodd (ra : Reg) (s : State) : Host.Outcome State Fault Refusal :=
  respond (flagResponse (oddBit (readReg ra s))) s

/-- `ISEVEN xa`, `41_predicates.md` R54: the negation of `ISODD`. -/
def execIseven (ra : Reg) (s : State) : Host.Outcome State Fault Refusal :=
  respond (flagResponse (!oddBit (readReg ra s))) s

/-- `ISZERO xa`, `41_predicates.md` R55. -/
def execIszero (ra : Reg) (s : State) : Host.Outcome State Fault Refusal :=
  respond (flagResponse (zeroBit (readReg ra s))) s

end Sys2Proof.Machine
end

