-- ==== Sys2Proof/Machine/Shift.lean ====
section
/-! DEFINITION. The halving and doubling shift units `DIV2` and `MUL2` (`42_shift.md`). -/

namespace Sys2Proof.Machine

/-- The loop of `42_shift.md` R57, limb 32 first: the new limbs and the bit shifted out of the lowest of them. The bit that
enters the most significant limb is 0. -/
def div2Limbs : List Word → List Word × Bit
  | [] => ([], false)
  | w :: ws =>
    let higher := div2Limbs ws
    ((BitVec.ofBool higher.2 ++ w.extractLsb' 1 63) :: higher.1, w.getLsbD 0)

theorem div2Limbs_length (ws : List Word) : (div2Limbs ws).1.length = ws.length := by
  induction ws with
  | nil => rfl
  | cons w ws ih => simp [div2Limbs, ih]

/-- The value shifted right by one bit; the bit shifted out of limb 0 is discarded, `42_shift.md` R57. -/
def div2Big (v : Big) : Big :=
  ⟨⟨(div2Limbs v.toList).1⟩, by simp [div2Limbs_length]⟩

/-- The loop of `42_shift.md` R58, limb 0 first, with the bit `t` shifted in at the bottom: the new limbs and the bit shifted
out of the last of them. -/
def mul2Limbs : List Word → Bit → List Word × Bit
  | [], t => ([], t)
  | w :: ws, t =>
    let higher := mul2Limbs ws (w.getLsbD 63)
    ((w.extractLsb' 0 63 ++ BitVec.ofBool t) :: higher.1, higher.2)

theorem mul2Limbs_length (ws : List Word) (t : Bit) : (mul2Limbs ws t).1.length = ws.length := by
  induction ws generalizing t with
  | nil => rfl
  | cons w ws ih => simp [mul2Limbs, ih]

/-- The value shifted left by one bit; the old bit 2111 is discarded without report, `42_shift.md` R58, R60. -/
def mul2Big (v : Big) : Big :=
  ⟨⟨(mul2Limbs v.toList false).1⟩, by simp [mul2Limbs_length]⟩

/-- `DIV2 xa`, `42_shift.md` R57. -/
def execDiv2 (ra : Reg) (s : State) : Host.Outcome State Fault Refusal :=
  update ra (div2Big (readReg ra s)) idleResponse s

/-- `MUL2 xa`, `42_shift.md` R58. -/
def execMul2 (ra : Reg) (s : State) : Host.Outcome State Fault Refusal :=
  update ra (mul2Big (readReg ra s)) idleResponse s

end Sys2Proof.Machine
end

