-- ==== Sys2Proof/Machine/Dispatch.lean ====
section
/-! DEFINITION. One arm per command. -/

namespace Sys2Proof.Machine

def exec (i : Instr) (s : State) : Host.Outcome State Fault Refusal :=
  match i with
  | .isodd ra => Sys2Proof.Machine.execIsodd ra s
  | .iseven ra => Sys2Proof.Machine.execIseven ra s
  | .iszero ra => Sys2Proof.Machine.execIszero ra s
  | .div2 ra => Sys2Proof.Machine.execDiv2 ra s
  | .mul2 ra => Sys2Proof.Machine.execMul2 ra s
  | .nbits ra => Sys2Proof.Machine.execNbits ra s
  | .add ra rb => Sys2Proof.Machine.execAdd ra rb s
  | .sub ra rb => Sys2Proof.Machine.execSub ra rb s
  | .cmp ra rb => Sys2Proof.Machine.execCmp ra rb s
  | .eq ra rb => Sys2Proof.Machine.execEq ra rb s
  | .rand ra => Sys2Proof.Machine.execRand ra s
  | .load ra => Sys2Proof.Machine.execLoad ra s
  | .widen ra => Sys2Proof.Machine.execWiden ra s
  | .read ra => Sys2Proof.Machine.execRead ra s

end Sys2Proof.Machine
end

