-- ==== Sys2Proof/Machine/Perform.lean ====
section
/-! DEFINITION. Performing the command on the ports. -/

namespace Sys2Proof.Machine

/-- Perform the command that stands on `CMD`: a legal byte runs its command, any other is an `IllegalCommand`
(`30_encoding.md` R37, `60_exceptions.md` R90, R93). -/
def performPorts (s : State) : Host.Outcome State Fault Refusal :=
  match decode s.ports.cmd with
  | .ok i => exec i s
  | .error _ => takeIllegalCommand s

/-- What one move of the host does. With no move left nothing happens: MWA holds its registers
(`60_exceptions.md` R98, `70_reset_and_hazards.md` R109). -/
def performMove (m : NextMove) (s : State) : Host.Outcome State Fault Refusal :=
  match m with
  | .nothing => .next s
  | .reset presented s1 => .next (takeReset presented s1)
  | .command s1 => performPorts s1

/-- The command a table word spells: its low 8 bits, all there is of a command (`30_encoding.md` R34). -/
def commandOfTableWord (nbits w : Nat) : Command :=
  BitVec.ofNat 8 (w % 2 ^ nbits)

end Sys2Proof.Machine
end

