-- ==== Sys2Proof/Machine/Step.lean ====
section
/-! DEFINITION. One step: the host's next move, performed whole (`20_memory.md` R31). MWA fetches nothing (`10_state.md` R14):
the next command is the head of the host's list. -/

namespace Sys2Proof.Machine

/-- One step of MWA. -/
def step (s : State) : Host.Outcome State Fault Refusal :=
  performMove (nextMove s) s

/-- `s` with the command byte `w` placed as the host's next transaction, the data ports as they stand
(notes/assumptions/3.md). -/
def State.withFetchWord (s : State) (nbits w : Nat) : State :=
  presentCommand (commandOfTableWord nbits w) s

end Sys2Proof.Machine
end

