-- ==== Sys2Proof/Machine/Runs.lean ====
section
/-! DEFINITION. Runs of MWA as lists of transactions (`70_reset_and_hazards.md` R109), the pseudo-instructions
(`30_encoding.md` R45), and the written form of transactions and responses (R44). -/

namespace Sys2Proof.Machine

/-- Perform one transaction on `s`: its inputs are sampled, then its command is performed. -/
def performTransaction (t : Transaction) (s : State) : Host.Outcome State Fault Refusal :=
  performPorts { s with ports := t }

/-- The fold of the commands' rules over a list of transactions in order, `20_memory.md` R31. -/
def performAll : List Transaction → State → Host.Outcome State Fault Refusal
  | [], s => .next s
  | t :: ts, s =>
    match performTransaction t s with
    | .next s1 => performAll ts s1
    | .fault f => .fault f
    | .refused r => .refused r

/-- `s` with a list of transactions placed before the host's other moves. -/
def withProgram (ts : List Transaction) (s : State) : State :=
  { s with pending := ts.map .command ++ s.pending }

/-- The observation of a run: the list of responses together with the final registers, `70_reset_and_hazards.md` R109. -/
def observation (s : State) : List Answer × Vector Big 4 :=
  (s.answers, s.regs)

/-- `ZERO xa` is `WIDEN xa, 0`, `30_encoding.md` R45; what the host drives on `RND` is ignored. -/
def zeroTransaction (ra : Reg) (rnd : DataPort) : Transaction :=
  { cmd := encode (.widen ra), din := 0#2112, rnd := rnd }

/-- `ONE xa` is `WIDEN xa, 1`, `30_encoding.md` R45. -/
def oneTransaction (ra : Reg) (rnd : DataPort) : Transaction :=
  { cmd := encode (.widen ra), din := 1#2112, rnd := rnd }

/-- The first command of `COPY xa, xb`: `READ xb`, `30_encoding.md` R45. -/
def copyReadTransaction (rb : Reg) (din rnd : DataPort) : Transaction :=
  { cmd := encode (.read rb), din := din, rnd := rnd }

/-- The second command of `COPY xa, xb`: `LOAD xa` with the `DOUT` just read on `DIN`, `30_encoding.md` R45. -/
def copyLoadTransaction (ra : Reg) (dout rnd : DataPort) : Transaction :=
  { cmd := encode (.load ra), din := dout, rnd := rnd }

/-- The data that travels with a command, written after it as a number, `30_encoding.md` R44. -/
def dataText (i : Instr) (t : Transaction) : String :=
  match i with
  | .load _ => ", " ++ toString t.din.toNat
  | .widen _ => ", " ++ toString (t.din.toNat % 2 ^ 64)
  | .rand _ => ", " ++ toString t.rnd.toNat
  | .isodd _ => ""
  | .iseven _ => ""
  | .iszero _ => ""
  | .div2 _ => ""
  | .mul2 _ => ""
  | .nbits _ => ""
  | .add _ _ => ""
  | .sub _ _ => ""
  | .cmp _ _ => ""
  | .eq _ _ => ""
  | .read _ => ""

/-- A transaction as the spec writes it, `30_encoding.md` R44. -/
def transactionText (i : Instr) (t : Transaction) : String :=
  assembly i ++ dataText i t

/-- The name of an outcome of the total order. -/
def comparisonName : Comparison → String
  | .less => "Less"
  | .equal => "Equal"
  | .greater => "Greater"

/-- The text of an `ORD` code; the code `10` is never driven (`20_memory.md` R25) and has no name. -/
def ordText (c : BitVec 2) : String :=
  match ordOfCode c with
  | some o => comparisonName o
  | none => "?"

/-- `-> FLAG=1` and the like. -/
def flagText (r : Response) : String :=
  "-> FLAG=" ++ toString r.flag.toNat

/-- A response as the spec writes it, the field the command produces (`30_encoding.md` R44); a command that produces none has
no text. -/
def responseText (i : Instr) (r : Response) : String :=
  match i with
  | .isodd _ => flagText r
  | .iseven _ => flagText r
  | .iszero _ => flagText r
  | .add _ _ => flagText r
  | .sub _ _ => flagText r
  | .eq _ _ => flagText r
  | .cmp _ _ => "-> ORD=" ++ ordText r.ord
  | .nbits _ => "-> NB=" ++ toString r.nb.toNat
  | .read _ => "-> DOUT=" ++ toString r.dout.toNat
  | .div2 _ => ""
  | .mul2 _ => ""
  | .rand _ => ""
  | .load _ => ""
  | .widen _ => ""

end Sys2Proof.Machine
end

