-- ==== Sys2Proof/Safety.lean ====
section
/-! DEFINITION. What a safe run of MWA is: the strict reading of `60_exceptions.md` R99, in which a command that reads an
unconstructed register ends the run with a fault; and the terms the statements use. -/

namespace Sys2Proof.Machine

/-- The registers a command reads, the table of `10_state.md` R12. -/
def reads : Instr → List Reg
  | .isodd ra => [ra]
  | .iseven ra => [ra]
  | .iszero ra => [ra]
  | .div2 ra => [ra]
  | .mul2 ra => [ra]
  | .nbits ra => [ra]
  | .add ra rb => [ra, rb]
  | .sub ra rb => [ra, rb]
  | .cmp ra rb => [ra, rb]
  | .eq ra rb => [ra, rb]
  | .rand _ => []
  | .load _ => []
  | .widen _ => []
  | .read ra => [ra]

/-- The register a command writes, the table of `10_state.md` R12. -/
def writes : Instr → Option Reg
  | .isodd _ => none
  | .iseven _ => none
  | .iszero _ => none
  | .div2 ra => some ra
  | .mul2 ra => some ra
  | .nbits _ => none
  | .add ra _ => some ra
  | .sub ra _ => some ra
  | .cmp _ _ => none
  | .eq _ _ => none
  | .rand ra => some ra
  | .load ra => some ra
  | .widen ra => some ra
  | .read _ => none

/-- The register a command constructs: `LOAD`, `WIDEN` and `RAND` alone, `10_state.md` R19. -/
def constructs : Instr → Option Reg
  | .rand ra => some ra
  | .load ra => some ra
  | .widen ra => some ra
  | .isodd _ => none
  | .iseven _ => none
  | .iszero _ => none
  | .div2 _ => none
  | .mul2 _ => none
  | .nbits _ => none
  | .add _ _ => none
  | .sub _ _ => none
  | .cmp _ _ => none
  | .eq _ _ => none
  | .read _ => none

/-- The first register a command reads that is unconstructed. -/
def unconstructedRead (i : Instr) (s : State) : Option Reg :=
  (reads i).find? fun r => !s.constructed.get r

/-- The strict reading of a command, `60_exceptions.md` R99: reading an unconstructed register ends the run. -/
def strictExec (i : Instr) (s : State) : Host.Outcome State Fault Refusal :=
  match unconstructedRead i s with
  | some r => .fault (.readOfUnconstructedRegister r)
  | none => exec i s

/-- The strict reading of the command on the ports; an illegal command reads nothing. -/
def strictPorts (s : State) : Host.Outcome State Fault Refusal :=
  match decode s.ports.cmd with
  | .ok i => strictExec i s
  | .error _ => takeIllegalCommand s

/-- The strict reading of a step. -/
def strictStep (s : State) : Host.Outcome State Fault Refusal :=
  match nextMove s with
  | .nothing => .next s
  | .reset presented s1 => .next (takeReset presented s1)
  | .command s1 => strictPorts s1

/-- `k` steps of the strict reading: a run in which a command read an unconstructed register is a faulted run,
`70_reset_and_hazards.md` R109. -/
def strictRun : Nat → State → Host.Outcome State Fault Refusal
  | 0, s => .next s
  | k + 1, s =>
    match strictStep s with
    | .next s1 => strictRun k s1
    | .fault f => .fault f
    | .refused r => .refused r

/-- The response a command gives: the entry it adds at the end of the observation. -/
def responseTo (i : Instr) (s : State) : Option Response :=
  match exec i s with
  | .next t =>
    match t.answers.getLast? with
    | some (.response r) => some r
    | some (.unspecified _) => none
    | none => none
  | .fault _ => none
  | .refused _ => none

/-- How many of the fields of a response are not 0: no command produces more than one of them (`20_memory.md` R25). -/
def fieldsDriven (r : Response) : Nat :=
  r.ill.toNat + r.flag.toNat + (decide (r.ord ≠ 0#2)).toNat + (decide (r.nb ≠ 0#12)).toNat +
    (decide (r.dout ≠ 0#2112)).toNat

/-- A response MWA can drive: `ORD = 10` and `NB` above 2112 never occur (`93_implementation_defined.md` U9), and every field
but the one produced is 0 (`20_memory.md` R25). -/
def legalResponse (r : Response) : Bool :=
  decide (r.ord ≠ 0b10#2) && decide (r.nb.toNat ≤ 2112) && decide (fieldsDriven r ≤ 1)

/-- An entry of the observation that MWA can make; what stands on the ports during reset is not constrained. -/
def legalAnswer : Answer → Bool
  | .response r => legalResponse r
  | .unspecified _ => true

/-- What every step keeps: every response so far is one MWA can drive, and the words taken from the randomness source came
33 at a time, at most once per answer (`20_memory.md` R25, R28). -/
def observationWf (s : State) : Prop :=
  s.answers.all legalAnswer = true ∧ s.rndTaken % 33 = 0 ∧ s.rndTaken ≤ 33 * s.answers.length

/-- Every unconstructed register still holds what the last reset left in it. -/
def unconstructedUntouched (s : State) : Prop :=
  ∀ r : Reg, s.constructed.get r = false → readReg r s = Config.unconstructed s.draws r

/-- Two states that differ at most in what their unconstructed registers hold. -/
def agreeOnConstructed (s t : State) : Prop :=
  (∀ r : Reg, s.constructed.get r = true → readReg r s = readReg r t) ∧
    s.constructed = t.constructed ∧ s.ports = t.ports ∧ s.pending = t.pending ∧ s.answers = t.answers ∧
    s.rndTaken = t.rndTaken ∧ s.draws = t.draws

end Sys2Proof.Machine
end

