-- ==== Sys2Proof/Certificates/Slice0/Obligations.lean ====
section
/-! DEFINITION. The statements for the provers. Each is about every state or every operand; none is about a program. A result
statement has as its conclusion the whole next state, so it is the command's completion and its frame at once. -/

open Sys2Proof Sys2Proof.Machine

/-! ### The leaf cells and the leading-zero count -/

/-- `40_word_primitives.md` R47: the sum modulo `2^64`, the carry, when the carry is 1, and the law. -/
def Obligations.AdcCellComputesSumAndCarry : Prop :=
  (∀ (a b : Word) (c : Bit),
    (adc64 a b c).1.toNat = (a.toNat + b.toNat + c.toNat) % 2 ^ 64 ∧
    (adc64 a b c).2.toNat = (a.toNat + b.toNat + c.toNat) / 2 ^ 64 ∧
    a.toNat + b.toNat + c.toNat ≤ 2 ^ 65 - 1 ∧
    ((adc64 a b c).2 = true ↔ 2 ^ 64 ≤ a.toNat + b.toNat + c.toNat) ∧
    a.toNat + b.toNat + c.toNat = (adc64 a b c).1.toNat + 2 ^ 64 * (adc64 a b c).2.toNat) ∧
  adc64 0xFFFFFFFFFFFFFFFF#64 1#64 false = (0#64, true)

/-- `40_word_primitives.md` R48: the difference modulo `2^64`, the borrow, when the borrow is 1, and the law. -/
def Obligations.SbbCellComputesDifferenceAndBorrow : Prop :=
  (∀ (a b : Word) (c : Bit),
    ((sbb64 a b c).1.toNat : Int) = ((a.toNat : Int) - b.toNat - c.toNat) % 2 ^ 64 ∧
    (0 ≤ (a.toNat : Int) - b.toNat - c.toNat →
      ((sbb64 a b c).1.toNat : Int) = (a.toNat : Int) - b.toNat - c.toNat) ∧
    ((a.toNat : Int) - b.toNat - c.toNat < 0 →
      ((sbb64 a b c).1.toNat : Int) = (a.toNat : Int) - b.toNat - c.toNat + 2 ^ 64) ∧
    ((sbb64 a b c).2 = true ↔ (a.toNat : Int) - b.toNat - c.toNat < 0) ∧
    ((sbb64 a b c).2 = true ↔ a.toNat < b.toNat + c.toNat) ∧
    (a.toNat : Int) - b.toNat - c.toNat = (sbb64 a b c).1.toNat - 2 ^ 64 * (sbb64 a b c).2.toNat) ∧
  (∀ a : Word, (sbb64 a 0xFFFFFFFFFFFFFFFF#64 true).2 = true) ∧
  sbb64 0#64 1#64 false = (0xFFFFFFFFFFFFFFFF#64, true)

/-- `40_word_primitives.md` R50: the flag forms equal the cells on every input, and their partial flags are never both 1. -/
def Obligations.FlagFormsEqualTheCells : Prop :=
  ∀ (a b : Word) (c : Bit),
    adc64 a b c = ((adc64Flags a b c).1, (adc64Flags a b c).2.1 || (adc64Flags a b c).2.2) ∧
    ((adc64Flags a b c).2.1 && (adc64Flags a b c).2.2) = false ∧
    sbb64 a b c = ((sbb64Flags a b c).1, (sbb64Flags a b c).2.1 || (sbb64Flags a b c).2.2) ∧
    ((sbb64Flags a b c).2.1 && (sbb64Flags a b c).2.2) = false

/-- `40_word_primitives.md` R51 (b) to (e); (a) is carried by the types. -/
def Obligations.CellConsequences : Prop :=
  (∀ a : Word, adc64 a 0#64 false = (a, false)) ∧
  (∀ a : Word, sbb64 a 0#64 false = (a, false)) ∧
  (∀ a : Word, sbb64 a a false = (0#64, false)) ∧
  (∀ (a b : Word) (c : Bit), adc64 a b c = adc64 b a c) ∧
  (∃ (a b : Word) (c : Bit), sbb64 a b c ≠ sbb64 b a c)

/-- `43_bitlength.md` R61: 64 for zero, otherwise 63 less the highest set bit's number; `64 - clz64` is the bit length. -/
def Obligations.LeadingZeroCount : Prop :=
  clz64 0#64 = 64 ∧
  (∀ (w : Word) (p : Fin 64), w.getLsbD p.val = true →
    (∀ q : Fin 64, p.val < q.val → w.getLsbD q.val = false) → clz64 w = 63 - p.val) ∧
  (∀ w : Word, w ≠ 0#64 →
    clz64 w ≤ 63 ∧ 2 ^ (64 - clz64 w - 1) ≤ w.toNat ∧ w.toNat < 2 ^ (64 - clz64 w)) ∧
  clz64 0x8000000000000000#64 = 0 ∧ clz64 1#64 = 63 ∧ clz64 0xFFFFFFFFFFFFFFFF#64 = 0

/-! ### Values, bits and ports -/

/-- `00_scope.md` R7, `10_state.md` R11: what number a value stands for, and that `val` and `big` are inverse. -/
def Obligations.ValueAndNumberCorrespond : Prop :=
  (∀ v : Big, val v = ∑ i : Fin 33, (v.get i).toNat * 2 ^ (64 * i.val)) ∧
  (∀ v : Big, val v < 2 ^ 2112) ∧
  (∀ (n : Nat) (i : Fin 33), ((big n).get i).toNat = n / 2 ^ (64 * i.val) % 2 ^ 64) ∧
  (∀ v : Big, big (val v) = v) ∧
  (∀ n : Nat, n < 2 ^ 2112 → val (big n) = n)

/-- `00_scope.md` R8: bit `k` of a value is bit `k mod 64` of limb `floor(k/64)` and has weight `2^k`. -/
def Obligations.BitNumbering : Prop :=
  ∀ (v : Big) (i : Fin 33) (j : Fin 64),
    bitOf v (64 * i.val + j.val) = (v.get i).getLsbD j.val ∧
    (val v).testBit (64 * i.val + j.val) = (v.get i).getLsbD j.val

/-- `20_memory.md` R24: limb `i` sits on port bits `64*i+63 : 64*i`, port bit `k` is bit `k` of the value, and the port as one
number equals `val`; packing and unpacking are inverse. -/
def Obligations.PortPacking : Prop :=
  ∀ (p : DataPort) (v : Big),
    (∀ i : Fin 33, (bigOfPort p).get i = p.extractLsb' (64 * i.val) 64) ∧
    (∀ i : Fin 33, (portOfBig v).extractLsb' (64 * i.val) 64 = v.get i) ∧
    (∀ k : Fin 2112, p.getLsbD k.val = bitOf (bigOfPort p) k.val) ∧
    (∀ k : Fin 2112, (portOfBig v).getLsbD k.val = bitOf v k.val) ∧
    p.toNat = val (bigOfPort p) ∧
    (portOfBig v).toNat = val v ∧
    bigOfPort (portOfBig v) = v ∧
    portOfBig (bigOfPort p) = p

/-- `20_memory.md` R25: the places of the fields in `RESP[15:0]`. -/
def Obligations.ResponsePacking : Prop :=
  ∀ r : Response,
    (packResp r).getLsbD 15 = r.ill ∧
    (packResp r).getLsbD 14 = r.flag ∧
    (packResp r).extractLsb' 12 2 = r.ord ∧
    (packResp r).extractLsb' 0 12 = r.nb

/-! ### Encoding -/

/-- `30_encoding.md` R37: the decoding procedure on all 256 bytes, and the two counts. -/
def Obligations.DecoderFollowsTheProcedure : Prop :=
  (∀ c : Command, 14 ≤ c.toNat / 16 → decode c = .error (.reservedOpcode (c.extractLsb' 4 4))) ∧
  (∀ c : Command, c.toNat / 16 < 14 → ¬(6 ≤ c.toNat / 16 ∧ c.toNat / 16 ≤ 9) → c.toNat % 4 ≠ 0 →
    decode c = .error (.reservedRb (c.extractLsb' 4 4) (c.extractLsb' 0 2))) ∧
  (∀ c : Command, c.toNat / 16 < 14 → (6 ≤ c.toNat / 16 ∧ c.toNat / 16 ≤ 9 ∨ c.toNat % 4 = 0) →
    ∃ i : Instr, decode c = .ok i ∧ (encodeFields i).op = c.extractLsb' 4 4 ∧
      (encodeFields i).ra = c.extractLsb' 2 2 ∧ (encodeFields i).rb = c.extractLsb' 0 2) ∧
  ((List.range 256).filter fun n => (decode (BitVec.ofNat 8 n)).toOption.isSome).length = 104 ∧
  ((List.range 256).filter fun n => (decode (BitVec.ofNat 8 n)).toOption.isNone).length = 152

/-- `30_encoding.md` R38: a legal byte is covered by the match and mask of its own row alone, an illegal one by no row. -/
def Obligations.MatchAndMaskAgreeWithDecoder : Prop :=
  opcodeMap.length = 14 ∧
  (∀ (c : Command) (i : Instr), decode c = .ok i → mnemonicsCovering c = [mnemonic i]) ∧
  (∀ (c : Command) (e : DecodeError), decode c = .error e → mnemonicsCovering c = [])

/-- `30_encoding.md` R39: the byte of every command, by its opcode number. -/
def Obligations.CommandByteFormula : Prop :=
  ∀ ra rb : Reg,
    (encode (.isodd ra)).toNat = 0x00 + 4 * ra.val ∧
    (encode (.iseven ra)).toNat = 0x10 + 4 * ra.val ∧
    (encode (.iszero ra)).toNat = 0x20 + 4 * ra.val ∧
    (encode (.div2 ra)).toNat = 0x30 + 4 * ra.val ∧
    (encode (.mul2 ra)).toNat = 0x40 + 4 * ra.val ∧
    (encode (.nbits ra)).toNat = 0x50 + 4 * ra.val ∧
    (encode (.add ra rb)).toNat = 0x60 + 4 * ra.val + rb.val ∧
    (encode (.sub ra rb)).toNat = 0x70 + 4 * ra.val + rb.val ∧
    (encode (.cmp ra rb)).toNat = 0x80 + 4 * ra.val + rb.val ∧
    (encode (.eq ra rb)).toNat = 0x90 + 4 * ra.val + rb.val ∧
    (encode (.rand ra)).toNat = 0xA0 + 4 * ra.val ∧
    (encode (.load ra)).toNat = 0xB0 + 4 * ra.val ∧
    (encode (.widen ra)).toNat = 0xC0 + 4 * ra.val ∧
    (encode (.read ra)).toNat = 0xD0 + 4 * ra.val

/-- Decode and encode agree, in both directions, and the byte of a command placed as the host's next transaction runs that
command. -/
def Obligations.EncodedCommandsDecodeAndRun : Prop :=
  (∀ i : Instr, i.wellFormed = true ∧ decode (encode i) = .ok i) ∧
  (∀ (c : Command) (i : Instr), decode c = .ok i → encode i = c) ∧
  (∀ (i : Instr) (s : State), decodeTableWord 8 (encode i).toNat = some i ∧
    step (s.withFetchWord 8 (encode i).toNat) = exec i { s with ports := { s.ports with cmd := encode i } })

/-- `30_encoding.md` R38, `95_test_vectors.md` section 2.2: one word of every row, as the spec writes it. -/
def Obligations.SampleWordsDecode : Prop :=
  decode 0x0C#8 = .ok (.isodd 3) ∧ decode 0x14#8 = .ok (.iseven 1) ∧ decode 0x28#8 = .ok (.iszero 2) ∧
  decode 0x3C#8 = .ok (.div2 3) ∧ decode 0x44#8 = .ok (.mul2 1) ∧ decode 0x58#8 = .ok (.nbits 2) ∧
  decode 0x61#8 = .ok (.add 0 1) ∧ decode 0x7E#8 = .ok (.sub 3 2) ∧ decode 0x84#8 = .ok (.cmp 1 0) ∧
  decode 0x9B#8 = .ok (.eq 2 3) ∧ decode 0xA8#8 = .ok (.rand 2) ∧ decode 0xB4#8 = .ok (.load 1) ∧
  decode 0xC0#8 = .ok (.widen 0) ∧ decode 0xDC#8 = .ok (.read 3)

/-! ### A step -/

/-- `20_memory.md` R31, `70_reset_and_hazards.md` R104: a presented legal command is run on its own inputs. -/
def Obligations.StepRunsTheDecodedCommand : Prop :=
  ∀ (s : State) (t : Transaction) (rest : List HostMove) (i : Instr),
    s.pending = .command t :: rest → decode t.cmd = .ok i →
    step s = exec i { s with pending := rest, ports := t }

/-- `60_exceptions.md` R90: when a byte is illegal, and everything that then happens; a legal command answers `ILL = 0`. -/
def Obligations.IllegalCommandIsAnsweredInBand : Prop :=
  (∀ c : Command, (∃ e : DecodeError, decode c = .error e) ↔
    (14 ≤ c.toNat / 16 ∨ (¬(6 ≤ c.toNat / 16 ∧ c.toNat / 16 ≤ 9) ∧ c.toNat % 4 ≠ 0))) ∧
  (∀ (s : State) (t : Transaction) (rest : List HostMove) (e : DecodeError),
    s.pending = .command t :: rest → decode t.cmd = .error e →
    step s = .next { s with
      pending := rest
      ports := t
      answers := s.answers ++ [.response ⟨true, false, 0#2, 0#12, 0#2112⟩] }) ∧
  packResp ⟨true, false, 0#2, 0#12, 0#2112⟩ = 0x8000#16 ∧
  (∀ (i : Instr) (s : State), ∃ r : Response, responseTo i s = some r ∧ r.ill = false)

/-- `70_reset_and_hazards.md` R100, R101, `60_exceptions.md` R93: the reset event, with or without a command presented. The free
values and their index are the model's choice (notes/assumptions/1.md, 5.md, 6.md). -/
def Obligations.ResetEventWins : Prop :=
  ∀ (s : State) (presented : Option Transaction) (rest : List HostMove),
    s.pending = .reset presented :: rest →
    step s = .next { s with
      pending := rest
      regs := #v[Config.unconstructed (s.draws + 1) 0, Config.unconstructed (s.draws + 1) 1,
        Config.unconstructed (s.draws + 1) 2, Config.unconstructed (s.draws + 1) 3]
      constructed := #v[false, false, false, false]
      draws := s.draws + 1
      answers := s.answers ++
        (if presented.isSome then [.unspecified (Config.droppedResponse (s.draws + 1))] else []) }

/-- `10_state.md` R19, `70_reset_and_hazards.md` R101: `LOAD`, `WIDEN` and `RAND` construct their register, no other command
constructs one, and only a reset event unconstructs one. -/
def Obligations.WhatConstructsARegister : Prop :=
  (∀ (i : Instr) (s t : State) (r : Reg), exec i s = .next t →
    (t.constructed.get r = true ↔
      s.constructed.get r = true ∨ i = .load r ∨ i = .widen r ∨ i = .rand r)) ∧
  (∀ (s t : State) (r : Reg), step s = .next t → s.constructed.get r = true → t.constructed.get r = false →
    ∃ (presented : Option Transaction) (rest : List HostMove), s.pending = .reset presented :: rest) ∧
  (∀ (s t : State) (presented : Option Transaction) (rest : List HostMove) (r : Reg),
    s.pending = .reset presented :: rest → step s = .next t → t.constructed.get r = false) ∧
  (∀ r : Reg, State.reset.constructed.get r = false)

/-- `60_exceptions.md` R98, `70_reset_and_hazards.md` R109: with no command presented nothing changes. That a step answers the
same state is the model's choice (notes/assumptions/4.md). -/
def Obligations.IdleStepHoldsTheState : Prop :=
  ∀ s : State, s.pending = [] → step s = .next s

/-- No command fails, whatever the registers and the ports hold (`60_exceptions.md` section 1), and no step does. That a step
goes on with no command presented, over a mid-run reset and over an illegal byte is the model's choice
(notes/assumptions/4.md, 5.md, 11.md). -/
def Obligations.NoCommandCanFail : Prop :=
  (∀ (i : Instr) (s : State), ∃ t : State, exec i s = .next t) ∧
  (∀ s : State, ∃ t : State, step s = .next t)

/-! ### Parity and zero tests -/

/-- `41_predicates.md` R53. -/
def Obligations.IsoddAnswersTheParity : Prop :=
  ∀ (ra : Reg) (s : State),
    exec (.isodd ra) s = .next { s with
      answers := s.answers ++
        [.response ⟨false, decide (val (readReg ra s) % 2 = 1), 0#2, 0#12, 0#2112⟩] } ∧
    decide (val (readReg ra s) % 2 = 1) = ((readReg ra s).get 0).getLsbD 0 ∧
    (encode (.isodd ra)).toNat = 0x00 + 4 * ra.val

/-- `41_predicates.md` R54. -/
def Obligations.IsevenNegatesIsodd : Prop :=
  ∀ (ra : Reg) (s : State),
    exec (.iseven ra) s = .next { s with
      answers := s.answers ++
        [.response ⟨false, decide (val (readReg ra s) % 2 = 0), 0#2, 0#12, 0#2112⟩] } ∧
    decide (val (readReg ra s) % 2 = 0) = (!((readReg ra s).get 0).getLsbD 0) ∧
    (∃ odd even : Response, responseTo (.isodd ra) s = some odd ∧ responseTo (.iseven ra) s = some even ∧
      even.flag = !odd.flag) ∧
    (encode (.iseven ra)).toNat = 0x10 + 4 * ra.val

/-- `41_predicates.md` R55, with its relation to `NBITS` and to `EQ` against a register that holds zero. -/
def Obligations.IszeroExaminesAllLimbs : Prop :=
  ∀ (ra rz : Reg) (s : State),
    exec (.iszero ra) s = .next { s with
      answers := s.answers ++
        [.response ⟨false, decide (val (readReg ra s) = 0), 0#2, 0#12, 0#2112⟩] } ∧
    (val (readReg ra s) = 0 ↔ ∀ i : Fin 33, (readReg ra s).get i = 0#64) ∧
    (∃ z n : Response, responseTo (.iszero ra) s = some z ∧ responseTo (.nbits ra) s = some n ∧
      (z.flag = true ↔ n.nb = 0#12)) ∧
    (val (readReg rz s) = 0 → responseTo (.iszero ra) s = responseTo (.eq ra rz) s) ∧
    (encode (.iszero ra)).toNat = 0x20 + 4 * ra.val

/-! ### Shifts -/

/-- `42_shift.md` R57: limb by limb, bit by bit, and the closed form. -/
def Obligations.Div2HalvesTheReceiver : Prop :=
  ∀ (ra : Reg) (s : State), ∃ v : Big,
    exec (.div2 ra) s = .next { s with
      regs := s.regs.set ra.val v ra.isLt
      answers := s.answers ++ [.response ⟨false, false, 0#2, 0#12, 0#2112⟩] } ∧
    (∀ i : Fin 32, v.get i.castSucc =
      BitVec.ofBool (((readReg ra s).get i.succ).getLsbD 0) ++ ((readReg ra s).get i.castSucc).extractLsb' 1 63) ∧
    v.get 32 = BitVec.ofBool false ++ ((readReg ra s).get 32).extractLsb' 1 63 ∧
    val v = val (readReg ra s) / 2 ∧
    (∀ k : Fin 2111, bitOf v k.val = bitOf (readReg ra s) (k.val + 1)) ∧
    bitOf v 2111 = false ∧
    (encode (.div2 ra)).toNat = 0x30 + 4 * ra.val

/-- `42_shift.md` R58: limb by limb, bit by bit, and the closed form; the lost bit is not reported (R60). -/
def Obligations.Mul2DoublesTheReceiver : Prop :=
  ∀ (ra : Reg) (s : State), ∃ v : Big,
    exec (.mul2 ra) s = .next { s with
      regs := s.regs.set ra.val v ra.isLt
      answers := s.answers ++ [.response ⟨false, false, 0#2, 0#12, 0#2112⟩] } ∧
    (∀ i : Fin 32, v.get i.succ =
      ((readReg ra s).get i.succ).extractLsb' 0 63 ++ BitVec.ofBool (((readReg ra s).get i.castSucc).getLsbD 63)) ∧
    v.get 0 = ((readReg ra s).get 0).extractLsb' 0 63 ++ BitVec.ofBool false ∧
    val v = 2 * val (readReg ra s) % 2 ^ 2112 ∧
    (∀ k : Fin 2111, bitOf v (k.val + 1) = bitOf (readReg ra s) k.val) ∧
    bitOf v 0 = false ∧
    (encode (.mul2 ra)).toNat = 0x40 + 4 * ra.val

/-- `42_shift.md` R59: the two round trips, exact when no bit is lost, and what is left otherwise. -/
def Obligations.ShiftRoundTrips : Prop :=
  ∀ (ra : Reg) (s t u : State),
    (exec (.mul2 ra) s = .next t → exec (.div2 ra) t = .next u →
      (bitOf (readReg ra s) 2111 = false → readReg ra u = readReg ra s) ∧
      (bitOf (readReg ra s) 2111 = true → val (readReg ra u) = val (readReg ra s) - 2 ^ 2111)) ∧
    (exec (.div2 ra) s = .next t → exec (.mul2 ra) t = .next u →
      (bitOf (readReg ra s) 0 = false → readReg ra u = readReg ra s) ∧
      (bitOf (readReg ra s) 0 = true → val (readReg ra u) = val (readReg ra s) - 1))

/-! ### Bit length -/

/-- `43_bitlength.md` R62: 2112 less the leading zeros of the limbs from 32 down to the first that has a set bit. -/
def Obligations.NbitsScansFromTheTop : Prop :=
  ∀ (ra : Reg) (s : State), ∃ n : Nat,
    exec (.nbits ra) s = .next { s with
      answers := s.answers ++ [.response ⟨false, false, 0#2, BitVec.ofNat 12 n, 0#2112⟩] } ∧
    n ≤ 2112 ∧
    ((∀ i : Fin 33, (readReg ra s).get i = 0#64) → n = 0) ∧
    (∀ j : Fin 33, (readReg ra s).get j ≠ 0#64 → (∀ i : Fin 33, j < i → (readReg ra s).get i = 0#64) →
      n = 2112 - (64 * (32 - j.val) + clz64 ((readReg ra s).get j))) ∧
    (encode (.nbits ra)).toNat = 0x50 + 4 * ra.val

/-- `43_bitlength.md` R63: the closed form, its uniqueness, and the limb form. -/
def Obligations.NbitsClosedForm : Prop :=
  ∀ (ra : Reg) (s : State), ∃ r : Response, responseTo (.nbits ra) s = some r ∧
    (val (readReg ra s) = 0 → r.nb.toNat = 0) ∧
    (val (readReg ra s) ≠ 0 →
      1 ≤ r.nb.toNat ∧ r.nb.toNat ≤ 2112 ∧
      2 ^ (r.nb.toNat - 1) ≤ val (readReg ra s) ∧ val (readReg ra s) < 2 ^ r.nb.toNat ∧
      (∀ n : Nat, 1 ≤ n → 2 ^ (n - 1) ≤ val (readReg ra s) → val (readReg ra s) < 2 ^ n → n = r.nb.toNat)) ∧
    (∀ j : Fin 33, (readReg ra s).get j ≠ 0#64 → (∀ i : Fin 33, j < i → (readReg ra s).get i = 0#64) →
      r.nb.toNat = 64 * j.val + 64 - clz64 ((readReg ra s).get j))

/-- `43_bitlength.md` R64: monotonicity, and what `MUL2` and `DIV2` do to the bit length. -/
def Obligations.NbitsIsMonotone : Prop :=
  (∀ (ra rb : Reg) (s : State), val (readReg ra s) ≤ val (readReg rb s) →
    ∃ a b : Response, responseTo (.nbits ra) s = some a ∧ responseTo (.nbits rb) s = some b ∧
      a.nb.toNat ≤ b.nb.toNat) ∧
  (∀ (ra : Reg) (s : State), ∃ n z : Response,
    responseTo (.nbits ra) s = some n ∧ responseTo (.iszero ra) s = some z ∧ (n.nb = 0#12 ↔ z.flag = true)) ∧
  (∀ (ra : Reg) (s t : State), exec (.mul2 ra) s = .next t →
    bitOf (readReg ra s) 2111 = false → val (readReg ra s) ≠ 0 →
    ∃ a b : Response, responseTo (.nbits ra) s = some a ∧ responseTo (.nbits ra) t = some b ∧
      b.nb.toNat = a.nb.toNat + 1) ∧
  (∀ (ra : Reg) (s t : State), exec (.div2 ra) s = .next t → val (readReg ra s) ≠ 0 →
    ∃ a b : Response, responseTo (.nbits ra) s = some a ∧ responseTo (.nbits ra) t = some b ∧
      a.nb.toNat = b.nb.toNat + 1)

/-! ### The adder and the subtractor -/

/-- `44_addsub.md` R66: a chain of 33 `adc64` cells, limb 0 first, that starts with a carry of 0. -/
def Obligations.AddThreadsTheCarry : Prop :=
  ∀ (ra rb : Reg) (s : State), ∃ (v : Big) (c : Fin 34 → Bit),
    c 0 = false ∧
    (∀ i : Fin 33, adc64 ((readReg ra s).get i) ((readReg rb s).get i) (c i.castSucc) = (v.get i, c i.succ)) ∧
    exec (.add ra rb) s = .next { s with
      regs := s.regs.set ra.val v ra.isLt
      answers := s.answers ++ [.response ⟨false, c 33, 0#2, 0#12, 0#2112⟩] } ∧
    (encode (.add ra rb)).toNat = 0x60 + 4 * ra.val + rb.val

/-- `44_addsub.md` R67: a chain of 33 `sbb64` cells, limb 0 first, that starts with a borrow of 0; the receiver is the
minuend. -/
def Obligations.SubThreadsTheBorrow : Prop :=
  ∀ (ra rb : Reg) (s : State), ∃ (v : Big) (c : Fin 34 → Bit),
    c 0 = false ∧
    (∀ i : Fin 33, sbb64 ((readReg ra s).get i) ((readReg rb s).get i) (c i.castSucc) = (v.get i, c i.succ)) ∧
    exec (.sub ra rb) s = .next { s with
      regs := s.regs.set ra.val v ra.isLt
      answers := s.answers ++ [.response ⟨false, c 33, 0#2, 0#12, 0#2112⟩] } ∧
    (encode (.sub ra rb)).toNat = 0x70 + 4 * ra.val + rb.val

/-- `44_addsub.md` R68: the closed form of `ADD`. -/
def Obligations.AddClosedForm : Prop :=
  ∀ (ra rb : Reg) (s : State), ∃ (v : Big) (f : Bit),
    exec (.add ra rb) s = .next { s with
      regs := s.regs.set ra.val v ra.isLt
      answers := s.answers ++ [.response ⟨false, f, 0#2, 0#12, 0#2112⟩] } ∧
    val v = (val (readReg ra s) + val (readReg rb s)) % 2 ^ 2112 ∧
    f.toNat = (val (readReg ra s) + val (readReg rb s)) / 2 ^ 2112 ∧
    (f = true ↔ 2 ^ 2112 ≤ val (readReg ra s) + val (readReg rb s)) ∧
    val (readReg ra s) + val (readReg rb s) = val v + 2 ^ 2112 * f.toNat

/-- `44_addsub.md` R69: the closed form of `SUB`. -/
def Obligations.SubClosedForm : Prop :=
  ∀ (ra rb : Reg) (s : State), ∃ (v : Big) (f : Bit),
    exec (.sub ra rb) s = .next { s with
      regs := s.regs.set ra.val v ra.isLt
      answers := s.answers ++ [.response ⟨false, f, 0#2, 0#12, 0#2112⟩] } ∧
    (val v : Int) = ((val (readReg ra s) : Int) - val (readReg rb s)) % 2 ^ 2112 ∧
    (f = true ↔ val (readReg ra s) < val (readReg rb s)) ∧
    (val (readReg ra s) : Int) - val (readReg rb s) = val v - 2 ^ 2112 * f.toNat

/-- `44_addsub.md` R70, `70_reset_and_hazards.md` R106: the same register as both operands. -/
def Obligations.SameRegisterTwice : Prop :=
  ∀ (ra : Reg) (s : State), ∃ v : Big,
    exec (.add ra ra) s = .next { s with
      regs := s.regs.set ra.val v ra.isLt
      answers := s.answers ++ [.response ⟨false, bitOf (readReg ra s) 2111, 0#2, 0#12, 0#2112⟩] } ∧
    exec (.mul2 ra) s = .next { s with
      regs := s.regs.set ra.val v ra.isLt
      answers := s.answers ++ [.response ⟨false, false, 0#2, 0#12, 0#2112⟩] } ∧
    val v = 2 * val (readReg ra s) % 2 ^ 2112 ∧
    exec (.sub ra ra) s = .next { s with
      regs := s.regs.set ra.val (big 0) ra.isLt
      answers := s.answers ++ [.response ⟨false, false, 0#2, 0#12, 0#2112⟩] } ∧
    exec (.cmp ra ra) s = .next { s with
      answers := s.answers ++ [.response ⟨false, false, 0b00#2, 0#12, 0#2112⟩] } ∧
    exec (.eq ra ra) s = .next { s with
      answers := s.answers ++ [.response ⟨false, true, 0#2, 0#12, 0#2112⟩] }

/-- `44_addsub.md` R71 (a) to (f). -/
def Obligations.AddSubProperties : Prop :=
  ∀ (ra rb : Reg) (s : State),
    (val (readReg rb s) = 0 →
      exec (.add ra rb) s = .next { s with
        answers := s.answers ++ [.response ⟨false, false, 0#2, 0#12, 0#2112⟩] } ∧
      exec (.sub ra rb) s = .next { s with
        answers := s.answers ++ [.response ⟨false, false, 0#2, 0#12, 0#2112⟩] }) ∧
    (readReg ra s = readReg rb s →
      exec (.sub ra rb) s = .next { s with
        regs := s.regs.set ra.val (big 0) ra.isLt
        answers := s.answers ++ [.response ⟨false, false, 0#2, 0#12, 0#2112⟩] }) ∧
    (∃ (v : Big) (f : Bit),
      exec (.add ra rb) s = .next { s with
        regs := s.regs.set ra.val v ra.isLt
        answers := s.answers ++ [.response ⟨false, f, 0#2, 0#12, 0#2112⟩] } ∧
      exec (.add rb ra) s = .next { s with
        regs := s.regs.set rb.val v rb.isLt
        answers := s.answers ++ [.response ⟨false, f, 0#2, 0#12, 0#2112⟩] }) ∧
    (ra ≠ rb → ∃ t u : State,
      exec (.add ra rb) s = .next t ∧ exec (.sub ra rb) t = .next u ∧ readReg ra u = readReg ra s ∧
      responseTo (.sub ra rb) t = responseTo (.add ra rb) s) ∧
    (∃ (v w : Big) (f g : Bit),
      exec (.sub ra rb) s = .next { s with
        regs := s.regs.set ra.val v ra.isLt
        answers := s.answers ++ [.response ⟨false, f, 0#2, 0#12, 0#2112⟩] } ∧
      exec (.sub rb ra) s = .next { s with
        regs := s.regs.set rb.val w rb.isLt
        answers := s.answers ++ [.response ⟨false, g, 0#2, 0#12, 0#2112⟩] } ∧
      val w = (2 ^ 2112 - val v) % 2 ^ 2112 ∧
      (readReg ra s ≠ readReg rb s → g = !f))

/-! ### The comparator -/

/-- `45_compare.md` R73: the highest limb that differs decides, compared unsigned. -/
def Obligations.CmpDecidesByTheHighestDifference : Prop :=
  ∀ (ra rb : Reg) (s : State), ∃ o : BitVec 2,
    exec (.cmp ra rb) s = .next { s with
      answers := s.answers ++ [.response ⟨false, false, o, 0#12, 0#2112⟩] } ∧
    ((∀ i : Fin 33, (readReg ra s).get i = (readReg rb s).get i) → o = 0b00#2) ∧
    (∀ j : Fin 33, (∀ i : Fin 33, j < i → (readReg ra s).get i = (readReg rb s).get i) →
      (((readReg ra s).get j).toNat < ((readReg rb s).get j).toNat → o = 0b11#2) ∧
      (((readReg rb s).get j).toNat < ((readReg ra s).get j).toNat → o = 0b01#2)) ∧
    o ≠ 0b10#2 ∧
    (encode (.cmp ra rb)).toNat = 0x80 + 4 * ra.val + rb.val

/-- `45_compare.md` R74: all 33 limbs take part. -/
def Obligations.EqComparesAllLimbs : Prop :=
  ∀ (ra rb : Reg) (s : State), ∃ e : Bit,
    exec (.eq ra rb) s = .next { s with
      answers := s.answers ++ [.response ⟨false, e, 0#2, 0#12, 0#2112⟩] } ∧
    (e = true ↔ ∀ i : Fin 33, (readReg ra s).get i = (readReg rb s).get i) ∧
    (encode (.eq ra rb)).toNat = 0x90 + 4 * ra.val + rb.val

/-- `45_compare.md` R75: the closed forms of `CMP` and `EQ`, and the order laws of the comparison. -/
def Obligations.ComparatorClosedForm : Prop :=
  (∀ (ra rb : Reg) (s : State), ∃ c e : Response,
    responseTo (.cmp ra rb) s = some c ∧ responseTo (.eq ra rb) s = some e ∧
    c.ord = ordCode (compareBig (readReg ra s) (readReg rb s)) ∧
    (c.ord = 0b11#2 ↔ val (readReg ra s) < val (readReg rb s)) ∧
    (c.ord = 0b00#2 ↔ val (readReg ra s) = val (readReg rb s)) ∧
    (c.ord = 0b01#2 ↔ val (readReg rb s) < val (readReg ra s)) ∧
    (e.flag = true ↔ val (readReg ra s) = val (readReg rb s))) ∧
  (∀ a : Big, compareBig a a ≠ .less) ∧
  (∀ a b c : Big, compareBig a b = .less → compareBig b c = .less → compareBig a c = .less) ∧
  (∀ a b : Big, a ≠ b → compareBig a b = .less ∨ compareBig b a = .less) ∧
  (∀ a b : Big, (compareBig a b = .less ↔ compareBig b a = .greater) ∧
    (compareBig a b = .equal ↔ compareBig b a = .equal))

/-- `45_compare.md` R76: the operator is associative with identity `Equal`, any bracketing of the 33 limb answers gives what
the scan gives, and equality is the conjunction of the 33 limb equalities. -/
def Obligations.ComparatorTreeForm : Prop :=
  (∀ a b c : Comparison, decideBy (decideBy a b) c = decideBy a (decideBy b c)) ∧
  (∀ a : Comparison, decideBy .equal a = a ∧ decideBy a .equal = a) ∧
  (∀ (a b : Big) (tree : CompareTree), treeLeaves tree = limbAnswers a b → treeAnswer tree = compareBig a b) ∧
  (∀ a b : Big, equalBit a b = (List.zipWith (fun x y => decide (x = y)) a.toList b.toList).all id)

/-- `45_compare.md` R77: `EQ` and `CMP` agree, `EQ` against zero is `ISZERO`, and the borrow of `SUB` is `CMP`'s `Less`. -/
def Obligations.EqAndCmpAgree : Prop :=
  ∀ (ra rb : Reg) (s : State),
    (∃ c e : Response, responseTo (.cmp ra rb) s = some c ∧ responseTo (.eq ra rb) s = some e ∧
      (e.flag = true ↔ c.ord = 0b00#2)) ∧
    (val (readReg rb s) = 0 → responseTo (.eq ra rb) s = responseTo (.iszero ra) s) ∧
    (∃ c d : Response, responseTo (.cmp ra rb) s = some c ∧ responseTo (.sub ra rb) s = some d ∧
      (d.flag = true ↔ c.ord = 0b11#2))

/-! ### Construction and reading -/

/-- `46_construct_read.md` R79: 32 words kept, the headroom limb 0, 33 words taken. -/
def Obligations.RandKeepsTheHeadroomLimbZero : Prop :=
  ∀ (ra : Reg) (s : State), ∃ v : Big,
    exec (.rand ra) s = .next { s with
      regs := s.regs.set ra.val v ra.isLt
      constructed := s.constructed.set ra.val true ra.isLt
      rndTaken := s.rndTaken + 33
      answers := s.answers ++ [.response ⟨false, false, 0#2, 0#12, 0#2112⟩] } ∧
    (∀ i : Fin 32, v.get i.castSucc = s.ports.rnd.extractLsb' (64 * i.val) 64) ∧
    v.get 32 = 0#64 ∧
    val v < 2 ^ 2048 ∧
    val v = s.ports.rnd.toNat % 2 ^ 2048 ∧
    (encode (.rand ra)).toNat = 0xA0 + 4 * ra.val

/-- `46_construct_read.md` R80: every pattern on `DIN` is loaded whole. -/
def Obligations.LoadTakesTheWholeOfDin : Prop :=
  ∀ (ra : Reg) (s : State), ∃ v : Big,
    exec (.load ra) s = .next { s with
      regs := s.regs.set ra.val v ra.isLt
      constructed := s.constructed.set ra.val true ra.isLt
      answers := s.answers ++ [.response ⟨false, false, 0#2, 0#12, 0#2112⟩] } ∧
    (∀ i : Fin 33, v.get i = s.ports.din.extractLsb' (64 * i.val) 64) ∧
    val v = s.ports.din.toNat ∧
    (encode (.load ra)).toNat = 0xB0 + 4 * ra.val

/-- `46_construct_read.md` R81: the low word of `DIN`, zero extended. -/
def Obligations.WidenZeroExtendsOneWord : Prop :=
  ∀ (ra : Reg) (s : State), ∃ v : Big,
    exec (.widen ra) s = .next { s with
      regs := s.regs.set ra.val v ra.isLt
      constructed := s.constructed.set ra.val true ra.isLt
      answers := s.answers ++ [.response ⟨false, false, 0#2, 0#12, 0#2112⟩] } ∧
    v.get 0 = s.ports.din.extractLsb' 0 64 ∧
    (∀ i : Fin 32, v.get i.succ = 0#64) ∧
    val v = s.ports.din.toNat % 2 ^ 64 ∧
    (encode (.widen ra)).toNat = 0xC0 + 4 * ra.val

/-- `46_construct_read.md` R82: all 33 limbs on `DOUT`, no register written. -/
def Obligations.ReadDrivesTheRegister : Prop :=
  ∀ (ra : Reg) (s : State), ∃ d : DataPort,
    exec (.read ra) s = .next { s with
      answers := s.answers ++ [.response ⟨false, false, 0#2, 0#12, d⟩] } ∧
    (∀ i : Fin 33, d.extractLsb' (64 * i.val) 64 = (readReg ra s).get i) ∧
    d.toNat = val (readReg ra s) ∧
    (encode (.read ra)).toNat = 0xD0 + 4 * ra.val

/-- `30_encoding.md` R45, `46_construct_read.md` R83: `ZERO`, `ONE` and `COPY`. -/
def Obligations.PseudoInstructions : Prop :=
  (∀ (ra : Reg) (rnd : DataPort) (s : State), ∃ t : State,
    performTransaction (zeroTransaction ra rnd) s = .next t ∧ val (readReg ra t) = 0 ∧
    (∀ r : Reg, r ≠ ra → readReg r t = readReg r s)) ∧
  (∀ (ra : Reg) (rnd : DataPort) (s : State), ∃ t : State,
    performTransaction (oneTransaction ra rnd) s = .next t ∧ val (readReg ra t) = 1 ∧
    (∀ r : Reg, r ≠ ra → readReg r t = readReg r s)) ∧
  (∀ (ra rb : Reg) (din rnd rnd' : DataPort) (s : State), ∃ (d : DataPort) (t u : State),
    performTransaction (copyReadTransaction rb din rnd) s = .next t ∧
    t.answers = s.answers ++ [.response ⟨false, false, 0#2, 0#12, d⟩] ∧
    performTransaction (copyLoadTransaction ra d rnd') t = .next u ∧
    readReg ra u = readReg rb s ∧
    (∀ r : Reg, r ≠ ra → readReg r u = readReg r s))

/-! ### The whole machine -/

/-- `10_state.md` R10, `20_memory.md` R27: a register has no alias, and a write replaces it whole. -/
def Obligations.RegistersAreIndependent : Prop :=
  ∀ (r q : Reg) (v w : Big) (s : State),
    readReg r (writeReg r v s) = v ∧
    (q ≠ r → readReg q (writeReg r v s) = readReg q s) ∧
    writeReg r w (writeReg r v s) = writeReg r w s ∧
    writeReg r (readReg r s) s = s

/-- `10_state.md` R12, `20_memory.md` R28: the frame of every command. Read-only commands change no register, the others change
their receiver alone, and only `RAND` takes words from the randomness source. -/
def Obligations.CommandsChangeOnlyTheReceiver : Prop :=
  ∀ (i : Instr) (s t : State), exec i s = .next t →
    (∀ r : Reg, writes i ≠ some r → readReg r t = readReg r s) ∧
    (∀ r : Reg, constructs i ≠ some r → t.constructed.get r = s.constructed.get r) ∧
    (∀ r : Reg, i = .rand r → t.rndTaken = s.rndTaken + 33) ∧
    ((∀ r : Reg, i ≠ .rand r) → t.rndTaken = s.rndTaken) ∧
    t.ports = s.ports ∧ t.pending = s.pending ∧ t.draws = s.draws ∧
    (∃ r : Response, t.answers = s.answers ++ [.response r])

/-- `10_state.md` R12, R15, R18: a command's answer and the value it writes depend on the registers it reads and the data
ports alone, so on no register it does not name, on no earlier response and on nothing left by an earlier command. -/
def Obligations.CommandsReadOnlyWhatTheyName : Prop :=
  ∀ (i : Instr) (s t s' t' : State),
    (∀ r : Reg, r ∈ reads i → readReg r s = readReg r t) →
    s.ports.din = t.ports.din → s.ports.rnd = t.ports.rnd →
    exec i s = .next s' → exec i t = .next t' →
    responseTo i s = responseTo i t ∧ (∀ r : Reg, writes i = some r → readReg r s' = readReg r t')

/-- `20_memory.md` R23, `46_construct_read.md` R81: `DIN` is read by `LOAD` and `WIDEN` alone, `WIDEN` reads its low 64 bits
alone, and `RND` is read by `RAND` alone. -/
def Obligations.DataPortsAreReadByTheirCommands : Prop :=
  ∀ (i : Instr) (s : State) (p : DataPort),
    ((∀ r : Reg, i ≠ .load r ∧ i ≠ .widen r) → ∃ t : State, exec i s = .next t ∧
      exec i { s with ports := { s.ports with din := p } } = .next { t with ports := { s.ports with din := p } }) ∧
    ((∀ r : Reg, i ≠ .rand r) → ∃ t : State, exec i s = .next t ∧
      exec i { s with ports := { s.ports with rnd := p } } = .next { t with ports := { s.ports with rnd := p } }) ∧
    (∀ r : Reg, i = .widen r → p.extractLsb' 0 64 = s.ports.din.extractLsb' 0 64 → ∃ t : State, exec i s = .next t ∧
      exec i { s with ports := { s.ports with din := p } } = .next { t with ports := { s.ports with din := p } })

/-- `10_state.md` R13: `RAND` alone forces limb 32 to zero, and arithmetic sets and clears it like any other limb. -/
def Obligations.HeadroomLimbIsOrdinary : Prop :=
  (∀ (ra : Reg) (s t : State), exec (.rand ra) s = .next t → (readReg ra t).get 32 = 0#64) ∧
  (∀ ra : Reg, ∃ s t : State, (readReg ra s).get 32 = 0#64 ∧ exec (.mul2 ra) s = .next t ∧
    (readReg ra t).get 32 ≠ 0#64) ∧
  (∀ ra : Reg, ∃ s t : State, (readReg ra s).get 32 ≠ 0#64 ∧ exec (.div2 ra) s = .next t ∧
    (readReg ra t).get 32 = 0#64) ∧
  (∀ ra rb : Reg, ra ≠ rb → ∃ s t : State, (readReg ra s).get 32 = 0#64 ∧ (readReg rb s).get 32 = 0#64 ∧
    exec (.add ra rb) s = .next t ∧ (readReg ra t).get 32 ≠ 0#64) ∧
  (∀ ra rb : Reg, ra ≠ rb → ∃ s t : State, (readReg ra s).get 32 = 0#64 ∧ (readReg rb s).get 32 = 0#64 ∧
    exec (.sub ra rb) s = .next t ∧ (readReg ra t).get 32 ≠ 0#64)

/-- `20_memory.md` R31: running the host's transactions step by step gives what folding the commands' rules over the list
gives, and leaves the host's later moves in place. -/
def Obligations.RunIsTheFoldOfItsCommands : Prop :=
  ∀ (ts : List Transaction) (s : State),
    (∃ t : State, performAll ts s = .next t) ∧
    core.run ts.length (withProgram ts s) = performAll ts s

/-- `70_reset_and_hazards.md` R109: the observation of a run has one response for each transaction, in order, and each is one
MWA can drive. -/
def Obligations.EveryTransactionIsAnsweredOnce : Prop :=
  ∀ (ts : List Transaction) (s t : State), performAll ts s = .next t →
    ∃ rs : List Response, rs.length = ts.length ∧ t.answers = s.answers ++ rs.map .response ∧
      ∀ r ∈ rs, legalResponse r = true

/-- `20_memory.md` R25, R28, `93_implementation_defined.md` U9: an invariant of every step. -/
def Obligations.StepKeepsTheObservationWellFormed : Prop :=
  ∀ s t : State, observationWf s → step s = .next t → observationWf t

/-- The invariant holds right after reset. -/
def Obligations.ResetObservationIsWellFormed : Prop :=
  observationWf State.reset

/-! ### The strict reading of an unconstructed register -/

/-- `60_exceptions.md` R99: the strict reading faults on a command that reads an unconstructed register, naming one it reads,
and otherwise is the machine. -/
def Obligations.StrictReadingFaultsOnUnconstructed : Prop :=
  (∀ (i : Instr) (s : State) (r : Reg), r ∈ reads i → s.constructed.get r = false →
    ∃ q : Reg, q ∈ reads i ∧ s.constructed.get q = false ∧
      strictExec i s = .fault (.readOfUnconstructedRegister q)) ∧
  (∀ (i : Instr) (s : State), (∀ r : Reg, r ∈ reads i → s.constructed.get r = true) →
    strictExec i s = exec i s) ∧
  (∀ s t : State, strictStep s = .next t → step s = .next t)

/-- `60_exceptions.md` R99, `10_state.md` R19: a run that never reads an unconstructed register neither shows nor keeps anything
of what the unconstructed registers held. -/
def Obligations.UnconstructedContentsAreNeverObserved : Prop :=
  ∀ (k : Nat) (s t s' : State), agreeOnConstructed s t → strictRun k s = .next s' →
    ∃ t' : State, strictRun k t = .next t' ∧ agreeOnConstructed s' t'

/-- `10_state.md` R19, `60_exceptions.md` R99: no step of the strict reading writes an unconstructed register without constructing
it. The free value it holds is the model's choice (notes/assumptions/1.md). -/
def Obligations.StrictStepLeavesUnconstructedUntouched : Prop :=
  ∀ s t : State, unconstructedUntouched s → strictStep s = .next t → unconstructedUntouched t

/-- Right after reset every register holds the free value of `notes/assumptions/1.md`, and none is constructed. -/
def Obligations.ResetRegistersAreUnspecified : Prop :=
  unconstructedUntouched State.reset ∧ (∀ r : Reg, State.reset.constructed.get r = false)
end

