-- ==== Sys2Proof/Laws/Limbs.lean ====
section
/-! SUPPORT. The loops over limbs: what the carry chains and the shifts do to the number a list of limbs stands for. -/

namespace Sys2Proof.Machine

theorem valLimbs_lt (ws : List Word) : valLimbs ws < 2 ^ (64 * ws.length) := by
  induction ws with
  | nil => simp [valLimbs]
  | cons w ws ih =>
    have hw := w.isLt
    have : 2 ^ (64 * (w :: ws).length) = 2 ^ 64 * 2 ^ (64 * ws.length) := by
      rw [List.length_cons, Nat.mul_succ, Nat.add_comm, Nat.pow_add]
    simp only [valLimbs]
    omega

theorem valLimbs_inj {as bs : List Word} (hlen : as.length = bs.length) (h : valLimbs as = valLimbs bs) : as = bs := by
  induction as generalizing bs with
  | nil => cases bs with
    | nil => rfl
    | cons b bs => simp at hlen
  | cons a as ih => cases bs with
    | nil => simp at hlen
    | cons b bs =>
      have ha := a.isLt
      have hb := b.isLt
      simp only [valLimbs] at h
      have h1 : a = b := BitVec.eq_of_toNat_eq (by omega)
      have h2 : as = bs := ih (by simpa using hlen) (by omega)
      rw [h1, h2]

theorem valLimbs_append (as bs : List Word) :
    valLimbs (as ++ bs) = valLimbs as + 2 ^ (64 * as.length) * valLimbs bs := by
  induction as with
  | nil => simp [valLimbs]
  | cons a as ih =>
    have : 2 ^ (64 * (a :: as).length) = 2 ^ 64 * 2 ^ (64 * as.length) := by
      rw [List.length_cons, Nat.mul_succ, Nat.add_comm, Nat.pow_add]
    simp only [List.cons_append, valLimbs, ih, this]
    ring

theorem adc64_val (a b : Word) (c : Bit) :
    (adc64 a b c).1.toNat + 2 ^ 64 * (adc64 a b c).2.toNat = a.toNat + b.toNat + c.toNat := by
  have ha := a.isLt
  have hb := b.isLt
  have hc : c.toNat ≤ 1 := Bool.toNat_le c
  by_cases h : 2 ^ 64 ≤ a.toNat + b.toNat + c.toNat
  · simp only [adc64, BitVec.toNat_ofNat, decide_eq_true h, Bool.toNat_true]
    omega
  · simp only [adc64, BitVec.toNat_ofNat, decide_eq_false h, Bool.toNat_false]
    omega

theorem sbb64_val (a b : Word) (c : Bit) :
    ((sbb64 a b c).1.toNat : Int) - 2 ^ 64 * (sbb64 a b c).2.toNat = (a.toNat : Int) - b.toNat - c.toNat := by
  have ha := a.isLt
  have hb := b.isLt
  have hc : c.toNat ≤ 1 := Bool.toNat_le c
  by_cases h : (a.toNat : Int) - b.toNat - c.toNat < 0 <;> simp [sbb64, h, BitVec.toNat_ofInt] <;> omega

theorem chain_adc64_val (as bs : List Word) (c : Bit) (hlen : as.length = bs.length) :
    valLimbs (chain adc64 as bs c).1 + 2 ^ (64 * as.length) * (chain adc64 as bs c).2.toNat =
      valLimbs as + valLimbs bs + c.toNat := by
  induction as generalizing bs c with
  | nil => cases bs with
    | nil => simp [chain, valLimbs]
    | cons b bs => simp at hlen
  | cons a as ih => cases bs with
    | nil => simp at hlen
    | cons b bs =>
      have hp : 2 ^ (64 * (a :: as).length) = 2 ^ 64 * 2 ^ (64 * as.length) := by
        rw [List.length_cons, Nat.mul_succ, Nat.add_comm, Nat.pow_add]
      have h := ih bs (adc64 a b c).2 (by simpa using hlen)
      have hcell := adc64_val a b c
      simp only [chain, valLimbs, hp, Nat.mul_assoc]
      omega

theorem chain_sbb64_val (as bs : List Word) (c : Bit) (hlen : as.length = bs.length) :
    (valLimbs (chain sbb64 as bs c).1 : Int) - 2 ^ (64 * as.length) * (chain sbb64 as bs c).2.toNat =
      (valLimbs as : Int) - valLimbs bs - c.toNat := by
  induction as generalizing bs c with
  | nil => cases bs with
    | nil => simp [chain, valLimbs]
    | cons b bs => simp at hlen
  | cons a as ih => cases bs with
    | nil => simp at hlen
    | cons b bs =>
      have hp : (2 : Int) ^ (64 * (a :: as).length) = 2 ^ 64 * 2 ^ (64 * as.length) := by
        rw [List.length_cons, Nat.mul_succ, Nat.add_comm, pow_add]
      have h := ih bs (sbb64 a b c).2 (by simpa using hlen)
      have hcell := sbb64_val a b c
      simp only [chain, valLimbs, hp, mul_assoc]
      push_cast
      omega

/-- The carry that enters limb `i` of a chain. -/
def carryInto (cell : Word → Word → Bit → Word × Bit) : List Word → List Word → Bit → Nat → Bit
  | a :: as, b :: bs, c, i + 1 => carryInto cell as bs (cell a b c).2 i
  | _, _, c, _ => c

theorem chain_cell (cell : Word → Word → Bit → Word × Bit) (as bs : List Word) (c : Bit) (i : Nat)
    (ha : i < as.length) (hb : i < bs.length) :
    cell as[i] bs[i] (carryInto cell as bs c i) =
      ((chain cell as bs c).1[i]'(by rw [chain_length]; omega), carryInto cell as bs c (i + 1)) := by
  induction as generalizing bs c i with
  | nil => simp at ha
  | cons a as ih => cases bs with
    | nil => simp at hb
    | cons b bs => cases i with
      | zero => cases as <;> cases bs <;> simp [carryInto, chain]
      | succ i =>
        have := ih bs (cell a b c).2 i (by simpa using ha) (by simpa using hb)
        simpa [carryInto, chain] using this

theorem chain_out (cell : Word → Word → Bit → Word × Bit) (as bs : List Word) (c : Bit) (hlen : as.length = bs.length) :
    (chain cell as bs c).2 = carryInto cell as bs c as.length := by
  induction as generalizing bs c with
  | nil => cases bs <;> simp [chain, carryInto]
  | cons a as ih => cases bs with
    | nil => simp at hlen
    | cons b bs => simpa [chain, carryInto] using ih bs (cell a b c).2 (by simpa using hlen)

theorem carryInto_zero (cell : Word → Word → Bit → Word × Bit) (as bs : List Word) (c : Bit) :
    carryInto cell as bs c 0 = c := by
  cases as <;> cases bs <;> rfl

theorem getLsbD_toNat (w : Word) (k : Nat) : (w.getLsbD k).toNat = w.toNat / 2 ^ k % 2 := by
  rw [BitVec.getLsbD, Nat.testBit_eq_decide_div_mod_eq]
  rcases Nat.mod_two_eq_zero_or_one (w.toNat / 2 ^ k) with h | h <;> simp only [h] <;> rfl

theorem div2Limbs_val (ws : List Word) :
    2 * valLimbs (div2Limbs ws).1 + (div2Limbs ws).2.toNat = valLimbs ws := by
  induction ws with
  | nil => simp [div2Limbs, valLimbs]
  | cons w ws ih =>
    have hw : 2 * (BitVec.ofBool (div2Limbs ws).2 ++ w.extractLsb' 1 63 : Word).toNat + (w.getLsbD 0).toNat =
        w.toNat + 2 ^ 64 * (div2Limbs ws).2.toNat := by
      have h0 : (w.getLsbD 0).toNat = w.toNat % 2 := by
        rw [getLsbD_toNat, Nat.pow_zero, Nat.div_one]
      have hlt := w.isLt
      have : (w.extractLsb' 1 63).toNat = w.toNat / 2 := by
        simp [BitVec.extractLsb'_toNat, Nat.shiftRight_eq_div_pow]
        omega
      rw [h0, BitVec.toNat_append, this, Nat.shiftLeft_eq, Nat.mul_comm _ (2 ^ 63), ← Nat.two_pow_add_eq_or_of_lt (by omega)]
      cases (div2Limbs ws).2 <;> simp <;> omega
    simp only [div2Limbs, valLimbs]
    omega

theorem mul2Limbs_val (ws : List Word) (t : Bit) :
    valLimbs (mul2Limbs ws t).1 + 2 ^ (64 * ws.length) * (mul2Limbs ws t).2.toNat = 2 * valLimbs ws + t.toNat := by
  induction ws generalizing t with
  | nil => simp [mul2Limbs, valLimbs]
  | cons w ws ih =>
    have hp : 2 ^ (64 * (w :: ws).length) = 2 ^ 64 * 2 ^ (64 * ws.length) := by
      rw [List.length_cons, Nat.mul_succ, Nat.add_comm, Nat.pow_add]
    have hw : (w.extractLsb' 0 63 ++ BitVec.ofBool t : Word).toNat + 2 ^ 64 * (w.getLsbD 63).toNat =
        2 * w.toNat + t.toNat := by
      have hlt := w.isLt
      have h63 : (w.getLsbD 63).toNat = w.toNat / 2 ^ 63 := by
        rw [getLsbD_toNat]
        omega
      have hx : (w.extractLsb' 0 63).toNat = w.toNat % 2 ^ 63 := by
        simp [BitVec.extractLsb'_toNat]
      rw [BitVec.toNat_append, hx, h63, Nat.shiftLeft_eq, Nat.mul_comm (w.toNat % 2 ^ 63), ← Nat.two_pow_add_eq_or_of_lt (by cases t <;> simp)]
      cases t <;> simp <;> omega
    have h := ih (w.getLsbD 63)
    simp only [mul2Limbs, valLimbs, hp, Nat.mul_assoc]
    omega

end Sys2Proof.Machine
end

