-- ==== Sys2Proof/Laws/State.lean ====
section
/-! SUPPORT. One lemma per field of State per update of it, and reading a register after an update. -/

namespace Sys2Proof.Machine

@[simp] theorem writeReg_regs (r : Reg) (v : Big) (s : State) :
    (writeReg r v s).regs = s.regs.set r.val v r.isLt := rfl
@[simp] theorem writeReg_constructed (r : Reg) (v : Big) (s : State) :
    (writeReg r v s).constructed = s.constructed := rfl
@[simp] theorem writeReg_ports (r : Reg) (v : Big) (s : State) :
    (writeReg r v s).ports = s.ports := rfl
@[simp] theorem writeReg_pending (r : Reg) (v : Big) (s : State) :
    (writeReg r v s).pending = s.pending := rfl
@[simp] theorem writeReg_answers (r : Reg) (v : Big) (s : State) :
    (writeReg r v s).answers = s.answers := rfl
@[simp] theorem writeReg_rndTaken (r : Reg) (v : Big) (s : State) :
    (writeReg r v s).rndTaken = s.rndTaken := rfl
@[simp] theorem writeReg_draws (r : Reg) (v : Big) (s : State) :
    (writeReg r v s).draws = s.draws := rfl

@[simp] theorem markConstructed_regs (r : Reg) (s : State) :
    (markConstructed r s).regs = s.regs := rfl
@[simp] theorem markConstructed_constructed (r : Reg) (s : State) :
    (markConstructed r s).constructed = s.constructed.set r.val true r.isLt := rfl
@[simp] theorem markConstructed_ports (r : Reg) (s : State) :
    (markConstructed r s).ports = s.ports := rfl
@[simp] theorem markConstructed_pending (r : Reg) (s : State) :
    (markConstructed r s).pending = s.pending := rfl
@[simp] theorem markConstructed_answers (r : Reg) (s : State) :
    (markConstructed r s).answers = s.answers := rfl
@[simp] theorem markConstructed_rndTaken (r : Reg) (s : State) :
    (markConstructed r s).rndTaken = s.rndTaken := rfl
@[simp] theorem markConstructed_draws (r : Reg) (s : State) :
    (markConstructed r s).draws = s.draws := rfl

@[simp] theorem answer_regs (a : Response) (s : State) :
    (answer a s).regs = s.regs := rfl
@[simp] theorem answer_constructed (a : Response) (s : State) :
    (answer a s).constructed = s.constructed := rfl
@[simp] theorem answer_ports (a : Response) (s : State) :
    (answer a s).ports = s.ports := rfl
@[simp] theorem answer_pending (a : Response) (s : State) :
    (answer a s).pending = s.pending := rfl
@[simp] theorem answer_answers (a : Response) (s : State) :
    (answer a s).answers = s.answers ++ [.response a] := rfl
@[simp] theorem answer_rndTaken (a : Response) (s : State) :
    (answer a s).rndTaken = s.rndTaken := rfl
@[simp] theorem answer_draws (a : Response) (s : State) :
    (answer a s).draws = s.draws := rfl

@[simp] theorem takeRandomWords_regs (n : Nat) (s : State) :
    (takeRandomWords n s).regs = s.regs := rfl
@[simp] theorem takeRandomWords_constructed (n : Nat) (s : State) :
    (takeRandomWords n s).constructed = s.constructed := rfl
@[simp] theorem takeRandomWords_ports (n : Nat) (s : State) :
    (takeRandomWords n s).ports = s.ports := rfl
@[simp] theorem takeRandomWords_pending (n : Nat) (s : State) :
    (takeRandomWords n s).pending = s.pending := rfl
@[simp] theorem takeRandomWords_answers (n : Nat) (s : State) :
    (takeRandomWords n s).answers = s.answers := rfl
@[simp] theorem takeRandomWords_rndTaken (n : Nat) (s : State) :
    (takeRandomWords n s).rndTaken = s.rndTaken + n := rfl
@[simp] theorem takeRandomWords_draws (n : Nat) (s : State) :
    (takeRandomWords n s).draws = s.draws := rfl

@[simp] theorem takeReset_regs (p : Option Transaction) (s : State) :
    (takeReset p s).regs = unspecifiedRegs (s.draws + 1) := rfl
@[simp] theorem takeReset_constructed (p : Option Transaction) (s : State) :
    (takeReset p s).constructed = noneConstructed := rfl
@[simp] theorem takeReset_ports (p : Option Transaction) (s : State) :
    (takeReset p s).ports = s.ports := rfl
@[simp] theorem takeReset_pending (p : Option Transaction) (s : State) :
    (takeReset p s).pending = s.pending := rfl
@[simp] theorem takeReset_answers (p : Option Transaction) (s : State) :
    (takeReset p s).answers = s.answers ++ droppedAnswers (s.draws + 1) p := rfl
@[simp] theorem takeReset_rndTaken (p : Option Transaction) (s : State) :
    (takeReset p s).rndTaken = s.rndTaken := rfl
@[simp] theorem takeReset_draws (p : Option Transaction) (s : State) :
    (takeReset p s).draws = s.draws + 1 := rfl

@[simp] theorem presentCommand_regs (c : Command) (s : State) :
    (presentCommand c s).regs = s.regs := rfl
@[simp] theorem presentCommand_constructed (c : Command) (s : State) :
    (presentCommand c s).constructed = s.constructed := rfl
@[simp] theorem presentCommand_ports (c : Command) (s : State) :
    (presentCommand c s).ports = s.ports := rfl
@[simp] theorem presentCommand_pending (c : Command) (s : State) :
    (presentCommand c s).pending = .command { s.ports with cmd := c } :: s.pending := rfl
@[simp] theorem presentCommand_answers (c : Command) (s : State) :
    (presentCommand c s).answers = s.answers := rfl
@[simp] theorem presentCommand_rndTaken (c : Command) (s : State) :
    (presentCommand c s).rndTaken = s.rndTaken := rfl
@[simp] theorem presentCommand_draws (c : Command) (s : State) :
    (presentCommand c s).draws = s.draws := rfl

@[simp] theorem withProgram_regs (ts : List Transaction) (s : State) :
    (withProgram ts s).regs = s.regs := rfl
@[simp] theorem withProgram_constructed (ts : List Transaction) (s : State) :
    (withProgram ts s).constructed = s.constructed := rfl
@[simp] theorem withProgram_ports (ts : List Transaction) (s : State) :
    (withProgram ts s).ports = s.ports := rfl
@[simp] theorem withProgram_pending (ts : List Transaction) (s : State) :
    (withProgram ts s).pending = ts.map .command ++ s.pending := rfl
@[simp] theorem withProgram_answers (ts : List Transaction) (s : State) :
    (withProgram ts s).answers = s.answers := rfl
@[simp] theorem withProgram_rndTaken (ts : List Transaction) (s : State) :
    (withProgram ts s).rndTaken = s.rndTaken := rfl
@[simp] theorem withProgram_draws (ts : List Transaction) (s : State) :
    (withProgram ts s).draws = s.draws := rfl

@[simp] theorem readReg_writeReg_same (r : Reg) (v : Big) (s : State) : readReg r (writeReg r v s) = v := by
  simp [readReg, writeReg, Vector.get_eq_getElem]

theorem readReg_writeReg_ne {r q : Reg} (h : q ≠ r) (v : Big) (s : State) :
    readReg q (writeReg r v s) = readReg q s := by
  have : r.val ≠ q.val := fun e => h (Fin.ext e.symm)
  simp [readReg, writeReg, Vector.get_eq_getElem, this]

@[simp] theorem readReg_answer (r : Reg) (a : Response) (s : State) : readReg r (answer a s) = readReg r s := rfl

@[simp] theorem readReg_markConstructed (r q : Reg) (s : State) : readReg r (markConstructed q s) = readReg r s := rfl

@[simp] theorem readReg_takeRandomWords (r : Reg) (n : Nat) (s : State) : readReg r (takeRandomWords n s) = readReg r s := rfl

theorem get_set_constructed (c : Vector Bool 4) (r q : Reg) :
    (c.set r.val true r.isLt).get q = (decide (q = r) || c.get q) := by
  by_cases h : q = r
  · subst h
    simp [Vector.get_eq_getElem]
  · have : r.val ≠ q.val := fun e => h (Fin.ext e.symm)
    simp [Vector.get_eq_getElem, this, h]

theorem writeReg_readReg (r : Reg) (s : State) : writeReg r (readReg r s) s = s := by
  have : s.regs.set r.val (readReg r s) r.isLt = s.regs := by
    simp [readReg, Vector.get_eq_getElem]
  simp [writeReg, this]

@[simp] theorem noneConstructed_get (r : Reg) : noneConstructed.get r = false := by
  revert r
  decide

theorem unspecifiedRegs_get (draw : Nat) (r : Reg) : (unspecifiedRegs draw).get r = Config.unconstructed draw r := by
  fin_cases r <;> rfl

end Sys2Proof.Machine
end

