-- ==== Sys2Proof/Laws/Ops.lean ====
section
/-! SUPPORT. What each shared operation can do, said once, and the three shapes a command has. -/

namespace Sys2Proof.Machine

theorem respond_next {r : Response} {s t : State} (h : respond r s = .next t) : t = answer r s := by
  simpa [respond] using h.symm

theorem update_next {ra : Reg} {v : Big} {r : Response} {s t : State} (h : update ra v r s = .next t) :
    t = answer r (writeReg ra v s) := by
  simpa [update] using h.symm

theorem construct_next {ra : Reg} {v : Big} {s t : State} (h : construct ra v s = .next t) :
    t = answer idleResponse (markConstructed ra (writeReg ra v s)) := by
  simpa [construct] using h.symm

theorem takeIllegalCommand_next {s t : State} (h : takeIllegalCommand s = .next t) : t = answer illegalResponse s := by
  simpa [takeIllegalCommand] using h.symm

/-- The words a command takes from the randomness source, `20_memory.md` R28. -/
def randomWordsTaken : Instr → Nat
  | .rand _ => 33
  | .isodd _ => 0
  | .iseven _ => 0
  | .iszero _ => 0
  | .div2 _ => 0
  | .mul2 _ => 0
  | .nbits _ => 0
  | .add _ _ => 0
  | .sub _ _ => 0
  | .cmp _ _ => 0
  | .eq _ _ => 0
  | .load _ => 0
  | .widen _ => 0
  | .read _ => 0

/-- The three shapes of a command: it answers; it writes its receiver and answers; it constructs its register. -/
theorem exec_cases (i : Instr) (s : State) :
    (writes i = none ∧ constructs i = none ∧ randomWordsTaken i = 0 ∧ ∃ r, exec i s = respond r s) ∨
    (∃ ra v r, writes i = some ra ∧ constructs i = none ∧ randomWordsTaken i = 0 ∧ exec i s = update ra v r s) ∨
    (∃ ra v, writes i = some ra ∧ constructs i = some ra ∧
      exec i s = construct ra v (takeRandomWords (randomWordsTaken i) s)) := by
  cases i with
  | isodd ra => exact .inl ⟨rfl, rfl, rfl, _, rfl⟩
  | iseven ra => exact .inl ⟨rfl, rfl, rfl, _, rfl⟩
  | iszero ra => exact .inl ⟨rfl, rfl, rfl, _, rfl⟩
  | nbits ra => exact .inl ⟨rfl, rfl, rfl, _, rfl⟩
  | cmp ra rb => exact .inl ⟨rfl, rfl, rfl, _, rfl⟩
  | eq ra rb => exact .inl ⟨rfl, rfl, rfl, _, rfl⟩
  | read ra => exact .inl ⟨rfl, rfl, rfl, _, rfl⟩
  | div2 ra => exact .inr (.inl ⟨ra, _, _, rfl, rfl, rfl, rfl⟩)
  | mul2 ra => exact .inr (.inl ⟨ra, _, _, rfl, rfl, rfl, rfl⟩)
  | add ra rb => exact .inr (.inl ⟨ra, _, _, rfl, rfl, rfl, rfl⟩)
  | sub ra rb => exact .inr (.inl ⟨ra, _, _, rfl, rfl, rfl, rfl⟩)
  | rand ra => exact .inr (.inr ⟨ra, _, rfl, rfl, rfl⟩)
  | load ra => exact .inr (.inr ⟨ra, _, rfl, rfl, rfl⟩)
  | widen ra => exact .inr (.inr ⟨ra, _, rfl, rfl, rfl⟩)

/-- What the host's next move can be. -/
theorem nextMove_cases (s : State) :
    (s.pending = [] ∧ nextMove s = .nothing) ∨
    (∃ p rest, s.pending = .reset p :: rest ∧ nextMove s = .reset p { s with pending := rest }) ∨
    (∃ t rest, s.pending = .command t :: rest ∧ nextMove s = .command { s with pending := rest, ports := t }) := by
  rcases h : s.pending with - | ⟨m, rest⟩
  · exact .inl ⟨rfl, by simp [nextMove, h]⟩
  · rcases m with t | p
    · exact .inr (.inr ⟨t, rest, rfl, by simp [nextMove, h]⟩)
    · exact .inr (.inl ⟨p, rest, rfl, by simp [nextMove, h]⟩)

/-- The command on the ports is run, or answered as illegal. -/
theorem performPorts_cases (s : State) :
    (∃ i, decode s.ports.cmd = .ok i ∧ performPorts s = exec i s) ∨
    (∃ e, decode s.ports.cmd = .error e ∧ performPorts s = takeIllegalCommand s) := by
  rcases h : decode s.ports.cmd with e | i
  · exact .inr ⟨e, rfl, by simp [performPorts, h]⟩
  · exact .inl ⟨i, rfl, by simp [performPorts, h]⟩

/-- The response of a command is the entry it adds. -/
theorem responseTo_of_answer {i : Instr} {s t : State} {r : Response} (h : exec i s = .next (answer r t)) :
    responseTo i s = some r := by
  simp [responseTo, h]

/-- A run whose first step goes on is the rest of the run. -/
theorem run_of_next (M : Host.Core) (k : Nat) {s t : M.State} (h : M.step s = .next t) : M.run (k + 1) s = M.run k t := by
  simp only [Host.Core.run, h]

end Sys2Proof.Machine
end

