-- ==== Sys2Proof/Laws/PerInstr.lean ====
section
/-! SUPPORT. Per-instruction families: the byte of every command passes the checks of `WellFormed.lean`. -/

/-- The fields of a command's byte are well formed, `30_encoding.md` R37. -/
def Sys2Proof.Laws.WellFormedFields.Statement (i : Sys2Proof.Instr) : Prop :=
  i.wellFormed = true

namespace Sys2Proof.Laws.WellFormedFields

theorem isodd (ra : Sys2Proof.Reg) : Statement (.isodd ra) := by
  revert ra; unfold Statement; decide

theorem iseven (ra : Sys2Proof.Reg) : Statement (.iseven ra) := by
  revert ra; unfold Statement; decide

theorem iszero (ra : Sys2Proof.Reg) : Statement (.iszero ra) := by
  revert ra; unfold Statement; decide

theorem div2 (ra : Sys2Proof.Reg) : Statement (.div2 ra) := by
  revert ra; unfold Statement; decide

theorem mul2 (ra : Sys2Proof.Reg) : Statement (.mul2 ra) := by
  revert ra; unfold Statement; decide

theorem nbits (ra : Sys2Proof.Reg) : Statement (.nbits ra) := by
  revert ra; unfold Statement; decide

theorem add (ra rb : Sys2Proof.Reg) : Statement (.add ra rb) := by
  revert ra rb; unfold Statement; decide

theorem sub (ra rb : Sys2Proof.Reg) : Statement (.sub ra rb) := by
  revert ra rb; unfold Statement; decide

theorem cmp (ra rb : Sys2Proof.Reg) : Statement (.cmp ra rb) := by
  revert ra rb; unfold Statement; decide

theorem eq (ra rb : Sys2Proof.Reg) : Statement (.eq ra rb) := by
  revert ra rb; unfold Statement; decide

theorem rand (ra : Sys2Proof.Reg) : Statement (.rand ra) := by
  revert ra; unfold Statement; decide

theorem load (ra : Sys2Proof.Reg) : Statement (.load ra) := by
  revert ra; unfold Statement; decide

theorem widen (ra : Sys2Proof.Reg) : Statement (.widen ra) := by
  revert ra; unfold Statement; decide

theorem read (ra : Sys2Proof.Reg) : Statement (.read ra) := by
  revert ra; unfold Statement; decide

end Sys2Proof.Laws.WellFormedFields
end

