-- ==== Sys2Proof/Laws/Values.lean ====
section
/-! SUPPORT. One spec lemma for each function on values: what it does to the number a value stands for. -/

namespace Sys2Proof.Machine

theorem testBit_valLimbs (ws : List Word) (k : Nat) :
    (valLimbs ws).testBit k = ((ws[k / 64]?).getD 0#64).getLsbD (k % 64) := by
  induction ws generalizing k with
  | nil => simp [valLimbs]
  | cons w ws ih =>
    rw [valLimbs, Nat.add_comm, Nat.testBit_two_pow_mul_add _ w.isLt]
    by_cases hk : k < 64
    · have h0 : k / 64 = 0 := by omega
      have h1 : k % 64 = k := by omega
      simp [hk, h0, h1, BitVec.getLsbD]
    · have h0 : k / 64 = (k - 64) / 64 + 1 := by omega
      have h1 : k % 64 = (k - 64) % 64 := by omega
      rw [if_neg hk, ih, h0, h1, List.getElem?_cons_succ]

theorem val_lt (v : Big) : val v < 2 ^ 2112 := by
  have h := valLimbs_lt v.toList
  simpa [val] using h

theorem testBit_val (v : Big) (k : Nat) : (val v).testBit k = bitOf v k :=
  testBit_valLimbs v.toList k

theorem val_inj {v w : Big} (h : val v = val w) : v = w := by
  have : v.toList = w.toList := valLimbs_inj (by simp) h
  exact Vector.toList_inj.mp this

theorem eq_of_testBit_below {a b n : Nat} (ha : a < 2 ^ n) (hb : b < 2 ^ n)
    (h : ∀ k, k < n → a.testBit k = b.testBit k) : a = b := by
  apply Nat.eq_of_testBit_eq
  intro k
  by_cases hk : k < n
  · exact h k hk
  · rw [Nat.testBit_lt_two_pow (lt_of_lt_of_le ha (Nat.pow_le_pow_right (by omega) (by omega))),
      Nat.testBit_lt_two_pow (lt_of_lt_of_le hb (Nat.pow_le_pow_right (by omega) (by omega)))]

theorem bitOf_bigOfPort (p : DataPort) (k : Nat) (hk : k < 2112) : bitOf (bigOfPort p) k = p.getLsbD k := by
  have h1 : k / 64 < 33 := by omega
  have h2 : k % 64 < 64 := by omega
  have h3 : 64 * (k / 64) + k % 64 = k := by omega
  simp [bitOf, bigOfPort, portLimb, h1, h2, h3]

theorem val_bigOfPort (p : DataPort) : val (bigOfPort p) = p.toNat := by
  refine eq_of_testBit_below (val_lt _) p.isLt fun k hk => ?_
  rw [testBit_val, bitOf_bigOfPort p k hk, BitVec.getLsbD]

theorem getLsbD_packLimbs (ws : List Word) (k : Nat) :
    (packLimbs ws).getLsbD k = (decide (k < 2112) && (valLimbs ws).testBit k) := by
  induction ws generalizing k with
  | nil => simp [packLimbs, valLimbs]
  | cons w ws ih =>
    rw [packLimbs, valLimbs, Nat.add_comm w.toNat, Nat.testBit_two_pow_mul_add _ w.isLt, BitVec.getLsbD_or,
      BitVec.getLsbD_shiftLeft, BitVec.getLsbD_setWidth, ih]
    by_cases hk : k < 64
    · have : k < 2112 := by omega
      simp [hk, this, BitVec.getLsbD]
    · have hw : w.getLsbD k = false := BitVec.getLsbD_of_ge _ _ (by omega)
      by_cases h2 : k < 2112
      · have : k - 64 < 2112 := by omega
        simp [hk, h2, hw, this]
      · simp [hk, h2, hw]

theorem toNat_portOfBig (v : Big) : (portOfBig v).toNat = val v := by
  refine eq_of_testBit_below (portOfBig v).isLt (val_lt v) fun k hk => ?_
  rw [BitVec.testBit_toNat, portOfBig, getLsbD_packLimbs, val]
  simp [hk]

theorem bitOf_big (n k : Nat) (hk : k < 2112) : bitOf (big n) k = n.testBit k := by
  have h1 : k / 64 < 33 := by omega
  have h2 : k % 64 < 64 := by omega
  have h3 : 64 * (k / 64) + k % 64 = k := by omega
  have h4 : (BitVec.ofNat 64 (n / 2 ^ (64 * (k / 64)))).getLsbD (k % 64) = n.testBit k := by
    rw [BitVec.getLsbD_ofNat, Nat.testBit_div_two_pow, Nat.add_comm, h3]
    simp [h2]
  simpa [bitOf, big, h1] using h4

theorem val_big (n : Nat) (hn : n < 2 ^ 2112) : val (big n) = n := by
  refine eq_of_testBit_below (val_lt _) hn fun k hk => ?_
  rw [testBit_val, bitOf_big n k hk]

theorem big_val (v : Big) : big (val v) = v :=
  val_inj (val_big _ (val_lt v))

theorem val_bigOfWord (w : Word) : val (bigOfWord w) = w.toNat := by
  have : ∀ n, valLimbs (List.replicate n 0#64) = 0 := by
    intro n
    induction n with
    | zero => rfl
    | succ n ih => simp [List.replicate_succ, valLimbs, ih]
  show valLimbs (w :: List.replicate 32 0#64) = w.toNat
  rw [valLimbs, this]
  simp

/-- Limb `i` of a value. -/
theorem get_eq_toList (v : Big) (i : Fin 33) : v.get i = v.toList[i.val]'(by simp) := by
  simp [Vector.get_eq_getElem]

theorem bitOf_limb (v : Big) (i : Fin 33) (j : Fin 64) :
    bitOf v (64 * i.val + j.val) = (v.get i).getLsbD j.val := by
  have h1 : (64 * i.val + j.val) / 64 = i.val := by omega
  have h2 : (64 * i.val + j.val) % 64 = j.val := by omega
  have hi : i.val < v.toList.length := by simp
  rw [bitOf, h1, h2, List.getElem?_eq_getElem hi, get_eq_toList]
  rfl

theorem valLimbs_eq_sum (ws : List Word) (n : Nat) (hn : ws.length = n) :
    valLimbs ws = ∑ i : Fin n, (ws[i.val]'(by omega)).toNat * 2 ^ (64 * i.val) := by
  subst hn
  induction ws with
  | nil => simp [valLimbs]
  | cons w ws ih =>
    rw [valLimbs, ih]
    simp only [List.length_cons]
    rw [Fin.sum_univ_succ, Finset.mul_sum]
    refine congrArg₂ (· + ·) ?_ (Finset.sum_congr rfl fun i _ => ?_)
    · simp only [Fin.val_zero, Nat.mul_zero, Nat.pow_zero, Nat.mul_one, List.getElem_cons_zero]
    · have hg : (w :: ws)[i.succ.val] = ws[i.val] := rfl
      have hp : 2 ^ (64 * i.succ.val) = 2 ^ 64 * 2 ^ (64 * i.val) := by
        rw [Fin.val_succ, Nat.mul_succ, Nat.add_comm, Nat.pow_add]
      rw [hg, hp, Nat.mul_left_comm]

/-! Shifts, limb by limb. -/

theorem div2Limbs_getElem (ws : List Word) (i : Nat) (hi : i < ws.length) :
    (div2Limbs ws).1[i]'(by rw [div2Limbs_length]; exact hi) =
      BitVec.ofBool (((ws[i + 1]?).getD 0#64).getLsbD 0) ++ ws[i].extractLsb' 1 63 := by
  induction ws generalizing i with
  | nil => simp at hi
  | cons w ws ih => cases i with
    | zero => cases ws <;> simp [div2Limbs]
    | succ i => simpa [div2Limbs] using ih i (by simpa using hi)

theorem mul2Limbs_getElem (ws : List Word) (t : Bit) (i : Nat) (hi : i < ws.length) :
    (mul2Limbs ws t).1[i]'(by rw [mul2Limbs_length]; exact hi) =
      ws[i].extractLsb' 0 63 ++ BitVec.ofBool (match i with
        | 0 => t
        | k + 1 => ((ws[k]?).getD 0#64).getLsbD 63) := by
  induction ws generalizing i t with
  | nil => simp at hi
  | cons w ws ih => cases i with
    | zero => simp [mul2Limbs]
    | succ i =>
      have := ih (w.getLsbD 63) i (by simpa using hi)
      simp only [mul2Limbs, List.getElem_cons_succ, this]
      cases i <;> simp

theorem val_div2Big (v : Big) : val (div2Big v) = val v / 2 := by
  have h := div2Limbs_val v.toList
  have hb := Bool.toNat_le (div2Limbs v.toList).2
  show valLimbs (div2Limbs v.toList).1 = valLimbs v.toList / 2
  omega

theorem val_mul2Big (v : Big) : val (mul2Big v) = 2 * val v % 2 ^ 2112 := by
  have h := mul2Limbs_val v.toList false
  have hlt : val (mul2Big v) < 2 ^ 2112 := val_lt _
  have hlen : 2 ^ (64 * v.toList.length) = 2 ^ 2112 := by simp
  rw [hlen] at h
  change valLimbs (mul2Limbs v.toList false).1 < 2 ^ 2112 at hlt
  show valLimbs (mul2Limbs v.toList false).1 = 2 * valLimbs v.toList % 2 ^ 2112
  rw [Bool.toNat_false, Nat.add_zero] at h
  rw [← h, Nat.add_mul_mod_self_left, Nat.mod_eq_of_lt hlt]

/-! ADD and SUB. -/

theorem val_chainBig_adc64 (a b : Big) :
    val (chainBig adc64 a b) + 2 ^ 2112 * (chainOut adc64 a b).toNat = val a + val b := by
  have h := chain_adc64_val a.toList b.toList false (by simp)
  have hlen : 2 ^ (64 * a.toList.length) = 2 ^ 2112 := by simp
  rw [hlen] at h
  simpa [val, chainBig, chainOut] using h

theorem val_chainBig_sbb64 (a b : Big) :
    (val (chainBig sbb64 a b) : Int) - 2 ^ 2112 * (chainOut sbb64 a b).toNat = (val a : Int) - val b := by
  have h := chain_sbb64_val a.toList b.toList false (by simp)
  have hlen : (2 : Int) ^ (64 * a.toList.length) = 2 ^ 2112 := by simp
  rw [hlen] at h
  simpa [val, chainBig, chainOut] using h

/-! Comparison. -/

theorem valLimbs_reverse_cons (a : Word) (as : List Word) :
    valLimbs (a :: as).reverse = valLimbs as.reverse + 2 ^ (64 * as.length) * a.toNat := by
  rw [List.reverse_cons, valLimbs_append]
  simp [valLimbs]

theorem compareScan_spec (as bs : List Word) (hlen : as.length = bs.length) :
    compareScan as bs =
      if valLimbs as.reverse < valLimbs bs.reverse then .less
      else if valLimbs bs.reverse < valLimbs as.reverse then .greater else .equal := by
  induction as generalizing bs with
  | nil => cases bs with
    | nil => simp [compareScan]
    | cons b bs => simp at hlen
  | cons a as ih => cases bs with
    | nil => simp at hlen
    | cons b bs =>
      have hl : as.length = bs.length := by simpa using hlen
      have h := ih bs hl
      have hA := valLimbs_lt as.reverse
      have hB := valLimbs_lt bs.reverse
      rw [List.length_reverse] at hA hB
      rw [← hl] at hB
      rw [valLimbs_reverse_cons, valLimbs_reverse_cons, ← hl]
      generalize hP : 2 ^ (64 * as.length) = P at hA hB ⊢
      rw [compareScan, h]
      by_cases h1 : a.toNat < b.toNat
      · have : P * a.toNat + P ≤ P * b.toNat := by
          rw [← Nat.mul_succ]; exact Nat.mul_le_mul_left _ h1
        rw [if_pos (BitVec.lt_def.mpr h1), if_pos (by omega)]
      · by_cases h2 : b.toNat < a.toNat
        · have : P * b.toNat + P ≤ P * a.toNat := by
            rw [← Nat.mul_succ]; exact Nat.mul_le_mul_left _ h2
          rw [if_neg (fun h => h1 (BitVec.lt_def.mp h)), if_pos (BitVec.lt_def.mpr h2), if_neg (by omega), if_pos (by omega)]
        · have hab : a.toNat = b.toNat := by omega
          rw [if_neg (fun h => h1 (BitVec.lt_def.mp h)), if_neg (fun h => h2 (BitVec.lt_def.mp h)), hab]
          simp

theorem compareBig_spec (a b : Big) :
    compareBig a b = if val a < val b then .less else if val b < val a then .greater else .equal := by
  have h := compareScan_spec a.toList.reverse b.toList.reverse (by simp)
  rw [List.reverse_reverse, List.reverse_reverse] at h
  exact h

theorem equalScan_spec (as bs : List Word) (e : Bit) (hlen : as.length = bs.length) :
    equalScan as bs e = (e && decide (as = bs)) := by
  induction as generalizing bs e with
  | nil => cases bs with
    | nil => simp [equalScan]
    | cons b bs => simp at hlen
  | cons a as ih => cases bs with
    | nil => simp at hlen
    | cons b bs =>
      rw [equalScan, ih bs _ (by simpa using hlen)]
      by_cases h : a = b <;> simp [h]

theorem equalBit_spec (a b : Big) : equalBit a b = decide (a = b) := by
  rw [equalBit, equalScan_spec _ _ _ (by simp)]
  simp [Vector.toList_inj]

theorem zeroScan_spec (ws : List Word) (z : Bit) : zeroScan ws z = (z && decide (valLimbs ws = 0)) := by
  induction ws generalizing z with
  | nil => simp [zeroScan, valLimbs]
  | cons w ws ih =>
    rw [zeroScan, ih]
    by_cases h : w = 0#64
    · simp [h, valLimbs]
    · have : w.toNat ≠ 0 := fun h0 => h (BitVec.eq_of_toNat_eq h0)
      have h2 : w.toNat + 2 ^ 64 * valLimbs ws ≠ 0 := by omega
      rw [valLimbs, decide_eq_false h2]
      simp [h]

theorem zeroBit_spec (v : Big) : zeroBit v = decide (val v = 0) := by
  rw [zeroBit, zeroScan_spec, Bool.true_and]
  rfl

theorem oddBit_spec (v : Big) : oddBit v = decide (val v % 2 = 1) := by
  have h : oddBit v = bitOf v 0 := by
    have := bitOf_limb v 0 0
    simpa [oddBit, Vector.get_eq_getElem] using this.symm
  rw [h, ← testBit_val, Nat.testBit_zero]

/-! Bit length. -/

theorem clzBelow_spec (w : Word) (k : Nat) :
    clzBelow w k ≤ k ∧ (∀ q, k - clzBelow w k ≤ q → q < k → w.getLsbD q = false) ∧
      (clzBelow w k < k → w.getLsbD (k - 1 - clzBelow w k) = true) := by
  induction k with
  | zero => simp [clzBelow]
  | succ k ih =>
    rw [clzBelow]
    by_cases h : w.getLsbD k = true
    · simp [h]
      intro q h1 h2
      omega
    · rw [if_neg h]
      obtain ⟨h1, h2, h3⟩ := ih
      refine ⟨by omega, fun q ha hb => ?_, fun hc => ?_⟩
      · rcases Nat.lt_succ_iff_lt_or_eq.mp hb with hq | rfl
        · exact h2 q (by omega) hq
        · simpa using h
      · have := h3 (by omega)
        rwa [show k + 1 - 1 - (1 + clzBelow w k) = k - 1 - clzBelow w k by omega]

theorem clz64_le (w : Word) : clz64 w ≤ 64 := (clzBelow_spec w 64).1

theorem clz64_bounds (w : Word) (hw : w ≠ 0#64) :
    clz64 w ≤ 63 ∧ 2 ^ (63 - clz64 w) ≤ w.toNat ∧ w.toNat < 2 ^ (64 - clz64 w) := by
  obtain ⟨h1, h2, h3⟩ := clzBelow_spec w 64
  change clz64 w ≤ 64 at h1
  change ∀ q, 64 - clz64 w ≤ q → q < 64 → w.getLsbD q = false at h2
  change clz64 w < 64 → w.getLsbD (63 - clz64 w) = true at h3
  have hlt : w.toNat < 2 ^ (64 - clz64 w) := by
    refine Nat.lt_pow_two_of_testBit _ fun i hi => ?_
    by_cases h64 : i < 64
    · exact h2 i hi h64
    · exact BitVec.getLsbD_of_ge w i (by omega)
  have hc : clz64 w ≤ 63 := by
    by_contra hc
    have : 64 - clz64 w = 0 := by omega
    rw [this] at hlt
    exact hw (BitVec.eq_of_toNat_eq (by simpa using hlt))
  exact ⟨hc, Nat.ge_two_pow_of_testBit (h3 (by omega)), hlt⟩

theorem clz64_zero : clz64 0#64 = 64 := by decide +kernel

theorem clz64_eq_64 (w : Word) : clz64 w = 64 ↔ w = 0#64 := by
  constructor
  · intro h
    by_contra hw
    have := (clz64_bounds w hw).1
    omega
  · rintro rfl
    exact clz64_zero

theorem nbitsScan_zeros (k : Nat) (ws : List Word) (n : Nat) :
    nbitsScan (List.replicate k 0#64 ++ ws) n = nbitsScan ws (n - 64 * k) := by
  induction k generalizing n with
  | zero => simp
  | succ k ih =>
    rw [List.replicate_succ, List.cons_append, nbitsScan, clz64_zero, if_neg (by simp), ih, Nat.mul_succ]
    congr 1
    omega

theorem nbitsScan_stop (w : Word) (ws : List Word) (n : Nat) (hw : w ≠ 0#64) :
    nbitsScan (w :: ws) n = n - clz64 w := by
  rw [nbitsScan, if_pos (fun h => hw ((clz64_eq_64 w).mp h))]

/-- The limbs split at the highest one that is not 0. -/
theorem split_at_highest (v : Big) (j : Fin 33) (hz : ∀ i : Fin 33, j < i → v.get i = 0#64) :
    v.toList = v.toList.take j.val ++ v.get j :: List.replicate (32 - j.val) 0#64 := by
  apply List.ext_getElem
  · simp; omega
  · intro n h1 h2
    have hn : n < 33 := by simpa using h1
    by_cases hlt : n < j.val
    · rw [List.getElem_append_left (by simp; omega), List.getElem_take]
    · rw [List.getElem_append_right (by simp; omega)]
      by_cases heq : n = j.val
      · subst heq
        simp [get_eq_toList]
      · have := hz ⟨n, hn⟩ (by simp [Fin.lt_def]; omega)
        rw [get_eq_toList] at this
        have h3 : n - (List.take j.val v.toList).length = (n - j.val - 1) + 1 := by simp; omega
        simp only [h3, List.getElem_cons_succ, List.getElem_replicate]
        exact this

theorem exists_highest (v : Big) (h : ¬∀ i : Fin 33, v.get i = 0#64) :
    ∃ j : Fin 33, v.get j ≠ 0#64 ∧ ∀ i : Fin 33, j < i → v.get i = 0#64 := by
  have hne : (Finset.univ.filter fun i : Fin 33 => v.get i ≠ 0#64).Nonempty := by
    obtain ⟨i, hi⟩ := not_forall.mp h
    exact ⟨i, by simp [hi]⟩
  refine ⟨Finset.max' _ hne, ?_, ?_⟩
  · have := Finset.max'_mem _ hne
    simpa using this
  · intro i hi
    by_contra hc
    have := Finset.le_max' (Finset.univ.filter fun i : Fin 33 => v.get i ≠ 0#64) i (by simp [hc])
    exact absurd hi (not_lt.mpr this)

theorem val_eq_zero_iff (v : Big) : val v = 0 ↔ ∀ i : Fin 33, v.get i = 0#64 := by
  constructor
  · intro h i
    apply BitVec.eq_of_getLsbD_eq
    intro k hk
    have := bitOf_limb v i ⟨k, hk⟩
    rw [← testBit_val, h, Nat.zero_testBit] at this
    simpa using this.symm
  · intro h
    apply Nat.eq_of_testBit_eq
    intro k
    rw [testBit_val, Nat.zero_testBit]
    by_cases hk : k < 2112
    · have := bitOf_limb v ⟨k / 64, by omega⟩ ⟨k % 64, by omega⟩
      rw [h] at this
      rw [show k = 64 * (k / 64) + k % 64 by omega]
      simpa using this
    · rw [← testBit_val]
      exact Nat.testBit_lt_two_pow (lt_of_lt_of_le (val_lt v) (Nat.pow_le_pow_right (by omega) (by omega)))

theorem bitLength_highest (v : Big) (j : Fin 33) (hj : v.get j ≠ 0#64) (hz : ∀ i : Fin 33, j < i → v.get i = 0#64) :
    bitLength v = 64 * j.val + 64 - clz64 (v.get j) := by
  have hs := split_at_highest v j hz
  have hr : v.toList.reverse = List.replicate (32 - j.val) 0#64 ++ (v.get j :: (v.toList.take j.val).reverse) := by
    conv_lhs => rw [hs]
    simp
  rw [bitLength, hr, nbitsScan_zeros, nbitsScan_stop _ _ _ hj]
  have := j.isLt
  omega

theorem bitLength_zero (v : Big) (h : ∀ i : Fin 33, v.get i = 0#64) : bitLength v = 0 := by
  have hr : v.toList.reverse = List.replicate 33 0#64 ++ [] := by
    rw [List.append_nil, List.eq_replicate_iff]
    refine ⟨by simp, fun b hb => ?_⟩
    rw [List.mem_reverse, List.mem_iff_getElem] at hb
    obtain ⟨i, hi, rfl⟩ := hb
    have := h ⟨i, by simpa using hi⟩
    rwa [get_eq_toList] at this
  rw [bitLength, hr, nbitsScan_zeros]
  rfl

theorem bitLength_bounds (v : Big) (h : val v ≠ 0) :
    1 ≤ bitLength v ∧ bitLength v ≤ 2112 ∧ 2 ^ (bitLength v - 1) ≤ val v ∧ val v < 2 ^ bitLength v := by
  have hne : ¬∀ i : Fin 33, v.get i = 0#64 := fun hz => h ((val_eq_zero_iff v).mpr hz)
  obtain ⟨j, hj, hz⟩ := exists_highest v hne
  obtain ⟨hc, hlo, hhi⟩ := clz64_bounds _ hj
  have hb := bitLength_highest v j hj hz
  have hjl := j.isLt
  have hval : val v = valLimbs (v.toList.take j.val) + 2 ^ (64 * j.val) * (v.get j).toNat := by
    have hrep : ∀ n, valLimbs (List.replicate n 0#64) = 0 := by
      intro n
      induction n with
      | zero => rfl
      | succ n ih => simp [List.replicate_succ, valLimbs, ih]
    have hlen : (v.toList.take j.val).length = j.val := by
      rw [List.length_take, Vector.length_toList]
      omega
    rw [val, split_at_highest v j hz, valLimbs_append, valLimbs, hrep, hlen]
    simp
  have htake := valLimbs_lt (v.toList.take j.val)
  have hlen : (v.toList.take j.val).length = j.val := by
      rw [List.length_take, Vector.length_toList]
      omega
  rw [hlen] at htake
  refine ⟨by omega, by omega, ?_, ?_⟩
  · rw [hb, hval, show 64 * j.val + 64 - clz64 (v.get j) - 1 = 64 * j.val + (63 - clz64 (v.get j)) by omega, Nat.pow_add]
    exact le_trans (Nat.mul_le_mul_left _ hlo) (Nat.le_add_left _ _)
  · rw [hb, hval, show 64 * j.val + 64 - clz64 (v.get j) = 64 * j.val + (64 - clz64 (v.get j)) by omega, Nat.pow_add]
    have : 2 ^ (64 * j.val) * ((v.get j).toNat + 1) ≤ 2 ^ (64 * j.val) * 2 ^ (64 - clz64 (v.get j)) :=
      Nat.mul_le_mul_left _ hhi
    rw [Nat.mul_succ] at this
    omega

end Sys2Proof.Machine
end

