-- ==== Sys2Proof/Tests/Slice0.lean ====
section
/-! SUPPORT. Tests with expected results from `95_test_vectors.md` and `30_encoding.md`, and a witness for the hypotheses of
every statement that has any. -/

namespace Sys2Proof.Machine

set_option Elab.async false

/-! ### Helpers -/

/-- The limb `F64` of `95_test_vectors.md`. -/
def allOnes : Word := 0xFFFFFFFFFFFFFFFF#64

/-- One limb of a limb list. -/
def at1 (i : Nat) (w : Word) : LimbEntry := ⟨i, i, w⟩

/-- The value a limb list writes. -/
abbrev B (es : List LimbEntry) : Big := bigOfEntries es

/-- `x0` and `x1` hold the two values and are constructed, `x2` and `x3` are not; nothing is pending. -/
def twoRegs (a b : Big) : State :=
  { State.reset with regs := #v[a, b, big 0, big 0], constructed := #v[true, true, false, false] }

/-- That machine with one transaction pending. -/
def presented (a b : Big) (c : Command) (din rnd : Big) : State :=
  { twoRegs a b with pending := [.command ⟨c, portOfBig din, portOfBig rnd⟩] }

/-- What one step shows: register `r` after it, the packed response, and `DOUT` as a value. -/
def shown (r : Reg) (s : State) : Option (Big × BitVec 16 × Big) :=
  match step s with
  | .next t =>
    match t.answers.getLast? with
    | some (.response q) => some (readReg r t, packResp q, bigOfPort q.dout)
    | _ => none
  | _ => none

/-- A step of a command that needs no data port. -/
def shownOf (a b : List LimbEntry) (c : Command) : Option (Big × BitVec 16 × Big) :=
  shown 0 (presented (B a) (B b) c (big 0) (big 0))

/-! ### Well-formedness smoke tests, one ill-formed term for each check -/

theorem test_wf_reserved_opcode : (CommandFields.mk 0xE#4 0#2 0#2).opDefined = false := by decide
theorem test_wf_reserved_opcode_refused : (CommandFields.mk 0xF#4 3#2 0#2).wellFormed = false := by decide
theorem test_wf_reserved_rb : (CommandFields.mk 0x5#4 2#2 1#2).rbAllowed = false := by decide
theorem test_wf_reserved_rb_refused : (CommandFields.mk 0xB#4 1#2 3#2).wellFormed = false := by decide
theorem test_wf_accepts_add : (CommandFields.mk 0x6#4 0#2 1#2).wellFormed = true := by decide

/-! ### Decoding: words of `95_test_vectors.md` section 2.2, written as `op ra rb` (`30_encoding.md` R35) -/

theorem test_decode_isodd : decode 0b00001100#8 = .ok (.isodd 3) := by decide
theorem test_decode_iseven : decode 0b00010100#8 = .ok (.iseven 1) := by decide
theorem test_decode_iszero : decode 0b00101000#8 = .ok (.iszero 2) := by decide
theorem test_decode_div2 : decode 0b00111100#8 = .ok (.div2 3) := by decide
theorem test_decode_mul2 : decode 0b01000100#8 = .ok (.mul2 1) := by decide
theorem test_decode_nbits : decode 0b01011000#8 = .ok (.nbits 2) := by decide
theorem test_decode_add : decode 0b01100001#8 = .ok (.add 0 1) := by decide
theorem test_decode_sub : decode 0b01111110#8 = .ok (.sub 3 2) := by decide
theorem test_decode_cmp : decode 0b10000100#8 = .ok (.cmp 1 0) := by decide
theorem test_decode_eq : decode 0b10011011#8 = .ok (.eq 2 3) := by decide
theorem test_decode_rand : decode 0b10101000#8 = .ok (.rand 2) := by decide
theorem test_decode_load : decode 0b10110100#8 = .ok (.load 1) := by decide
theorem test_decode_widen : decode 0b11000000#8 = .ok (.widen 0) := by decide
theorem test_decode_read : decode 0b11011100#8 = .ok (.read 3) := by decide
theorem test_decode_reserved_op : decode 0xE0#8 = .error (.reservedOpcode 0xE#4) := by decide
theorem test_decode_reserved_op_last : decode 0xFF#8 = .error (.reservedOpcode 0xF#4) := by decide
theorem test_decode_reserved_rb : decode 0x59#8 = .error (.reservedRb 0x5#4 1#2) := by decide
theorem test_decode_reserved_rb_load : decode 0xB7#8 = .error (.reservedRb 0xB#4 3#2) := by decide

/-- A byte placed from reset is the next command; the operands are the registers it names. -/
theorem test_fetch_word_from_reset :
    step (State.reset.withFetchWord 8 0x61) =
      exec (.add 0 1) { State.reset with ports := { Config.undrivenPorts with cmd := 0x61#8 } } := rfl

/-! ### Leaf cells, `95_test_vectors.md` section 2.1 -/

theorem test_adc64 : adc64 0x1122334455667788#64 0xEEDDCCBBAA998877#64 true = (0#64, true) := by decide
theorem test_sbb64 : sbb64 0x0123456789ABCDEF#64 0x0123456789ABCDEF#64 true = (allOnes, true) := by decide
theorem test_clz64 : clz64 0x00FF000000000000#64 = 8 := by decide

/-! ### One step of each command, `95_test_vectors.md` sections 2.3 to 2.8 -/

/-- VN7. -/
theorem test_isodd_reads_limb_0 :
    shownOf [at1 0 allOnes, at1 1 1#64] [] 0x00#8 = some (B [at1 0 allOnes, at1 1 1#64], 0x4000#16, big 0) := by
  decide +kernel

/-- VN6. -/
theorem test_isodd_ignores_limb_1 : shownOf [at1 1 1#64] [] 0x00#8 = some (B [at1 1 1#64], 0x0000#16, big 0) := by
  decide +kernel

/-- VN6. -/
theorem test_iseven : shownOf [at1 1 1#64] [] 0x10#8 = some (B [at1 1 1#64], 0x4000#16, big 0) := by decide +kernel

/-- VN1. -/
theorem test_iszero_of_zero : shownOf [] [] 0x20#8 = some (B [], 0x4000#16, big 0) := by decide +kernel

/-- VN12. -/
theorem test_iszero_looks_at_limb_32 : shownOf [at1 32 1#64] [] 0x20#8 = some (B [at1 32 1#64], 0x0000#16, big 0) := by
  decide +kernel

/-- VH11. -/
theorem test_div2 :
    shownOf [at1 0 0xAAAAAAAAAAAAAAAA#64, at1 1 0x5555555555555555#64, at1 32 0xC000000000000001#64] [] 0x30#8 =
      some (B [at1 0 0xD555555555555555#64, at1 1 0x2AAAAAAAAAAAAAAA#64, at1 31 0x8000000000000000#64,
        at1 32 0x6000000000000000#64], 0x0000#16, big 0) := by
  decide +kernel

/-- VH11. -/
theorem test_mul2 :
    shownOf [at1 0 0xAAAAAAAAAAAAAAAA#64, at1 1 0x5555555555555555#64, at1 32 0xC000000000000001#64] [] 0x40#8 =
      some (B [at1 0 0x5555555555555554#64, at1 1 0xAAAAAAAAAAAAAAAB#64, at1 32 0x8000000000000002#64],
        0x0000#16, big 0) := by
  decide +kernel

/-- VN9. -/
theorem test_nbits_middle_limb :
    shownOf [at1 16 0x0000000100000000#64] [] 0x50#8 = some (B [at1 16 0x0000000100000000#64], 0x0421#16, big 0) := by
  decide +kernel

/-- VN13. -/
theorem test_nbits_full_width :
    shownOf [at1 32 0x8000000000000000#64] [] 0x50#8 = some (B [at1 32 0x8000000000000000#64], 0x0840#16, big 0) := by
  decide +kernel

/-- VA5. -/
theorem test_add_carry_chain :
    shownOf [⟨0, 2, allOnes⟩, at1 3 0x0123456789ABCDEF#64] [at1 0 1#64, at1 3 0xFEDCBA9876543210#64] 0x61#8 =
      some (B [at1 4 1#64], 0x0000#16, big 0) := by
  decide +kernel

/-- VA7 as `ADD x0, x0`. -/
theorem test_add_same_register :
    shownOf [⟨0, 32, allOnes⟩] [] 0x60#8 =
      some (B [at1 0 0xFFFFFFFFFFFFFFFE#64, ⟨1, 32, allOnes⟩], 0x4000#16, big 0) := by
  decide +kernel

/-- VS9. -/
theorem test_sub_borrow_chain :
    shownOf [at1 4 1#64] [at1 0 1#64, at1 3 0xFEDCBA9876543210#64] 0x71#8 =
      some (B [⟨0, 2, allOnes⟩, at1 3 0x0123456789ABCDEF#64], 0x0000#16, big 0) := by
  decide +kernel

/-- VS8. -/
theorem test_sub_borrows_out :
    shownOf [at1 0 3#64] [at1 0 5#64] 0x71#8 =
      some (B [at1 0 0xFFFFFFFFFFFFFFFE#64, ⟨1, 32, allOnes⟩], 0x4000#16, big 0) := by
  decide +kernel

/-- VK10. -/
theorem test_cmp_higher_limb_decides :
    shownOf [at1 0 1#64, at1 5 8#64] [at1 0 allOnes, at1 5 7#64] 0x81#8 =
      some (B [at1 0 1#64, at1 5 8#64], 0x1000#16, big 0) := by
  decide +kernel

/-- VK5. -/
theorem test_cmp_less : shownOf [at1 0 allOnes] [at1 32 1#64] 0x81#8 = some (B [at1 0 allOnes], 0x3000#16, big 0) := by
  decide +kernel

/-- VK8. -/
theorem test_eq_looks_at_limb_32 :
    shownOf [⟨0, 32, allOnes⟩] [⟨0, 31, allOnes⟩, at1 32 0xFFFFFFFFFFFFFFFE#64] 0x91#8 =
      some (B [⟨0, 32, allOnes⟩], 0x0000#16, big 0) := by
  decide +kernel

/-- VK12. -/
theorem test_eq_of_equals : shownOf [at1 0 5#64] [at1 0 5#64] 0x91#8 = some (B [at1 0 5#64], 0x4000#16, big 0) := by
  decide +kernel

/-- VM3. -/
theorem test_rand_clears_limb_32 :
    shown 2 (presented (big 0) (big 0) 0xA8#8 (big 0)
      (B [at1 0 0x1111111111111111#64, at1 31 0x2222222222222222#64, at1 32 0x3333333333333333#64])) =
      some (B [at1 0 0x1111111111111111#64, at1 31 0x2222222222222222#64], 0x0000#16, big 0) := by
  decide +kernel

/-- VM4. -/
theorem test_load_keeps_limb_32 :
    shown 1 (presented (big 0) (big 0) 0xB4#8 (B [at1 0 allOnes, at1 32 1#64]) (big 0)) =
      some (B [at1 0 allOnes, at1 32 1#64], 0x0000#16, big 0) := by
  decide +kernel

/-- VM5. -/
theorem test_widen_takes_the_low_word :
    shown 0 (presented (B [⟨0, 32, allOnes⟩]) (big 0) 0xC0#8
      (B [at1 0 5#64, at1 1 0xDEADBEEFCAFEF00D#64, at1 32 1#64]) (big 0)) =
      some (B [at1 0 5#64], 0x0000#16, big 0) := by
  decide +kernel

/-- VM7. -/
theorem test_read_drives_dout :
    shown 1 (presented (big 0) (B [at1 0 allOnes, at1 32 1#64]) 0xD4#8 (big 0) (big 0)) =
      some (B [at1 0 allOnes, at1 32 1#64], 0x0000#16, B [at1 0 allOnes, at1 32 1#64]) := by
  decide +kernel

/-- `95_test_vectors.md` section 3, P4 step 6: `0x59` answers `0x8000` and changes nothing. -/
theorem test_illegal_command :
    shownOf [at1 0 7#64] [] 0x59#8 = some (B [at1 0 7#64], 0x8000#16, big 0) := by
  decide +kernel

/-- `95_test_vectors.md` section 3, P6, in the strict reading: `ADD x0, x1` with `x1` unconstructed faults. -/
theorem test_strict_faults_on_unconstructed :
    strictExec (.add 0 1) { twoRegs (big 7) (big 0) with constructed := #v[true, false, false, false] } =
      .fault (.readOfUnconstructedRegister 1) := rfl

/-- `30_encoding.md` R44: the written form of a transaction. -/
theorem test_transaction_text :
    transactionText (.widen 0) ⟨0xC0#8, 5#2112, 0#2112⟩ = "WIDEN x0, 5" := by decide +kernel

/-! ### Witnesses: concrete values that meet the hypotheses of a statement together -/

/-- A machine in which `x0` is 5 and `x1` is zero. -/
def fiveAndZero : State := twoRegs (big 5) (big 0)

/-- A transaction `ADD x0, x1`. -/
def addTransaction : Transaction := ⟨0x61#8, 0#2112, 0#2112⟩

theorem witness_SbbCell_nonnegative :
    0 ≤ ((1#64 : Word).toNat : Int) - (0#64 : Word).toNat - (true : Bit).toNat := by decide
theorem witness_SbbCell_negative :
    ((0#64 : Word).toNat : Int) - (0#64 : Word).toNat - (true : Bit).toNat < 0 := by decide
theorem witness_LeadingZeroCount_bit_0 :
    (1#64 : Word).getLsbD (0 : Fin 64).val = true ∧
      ∀ q : Fin 64, (0 : Fin 64).val < q.val → (1#64 : Word).getLsbD q.val = false := by decide
theorem witness_LeadingZeroCount_bit_63 :
    allOnes.getLsbD (63 : Fin 64).val = true ∧
      ∀ q : Fin 64, (63 : Fin 64).val < q.val → allOnes.getLsbD q.val = false := by decide
theorem witness_LeadingZeroCount_nonzero : (1#64 : Word) ≠ 0#64 := by decide
theorem witness_ValueAndNumber_top : 2 ^ 2112 - 1 < 2 ^ 2112 :=
  Nat.sub_lt (Nat.two_pow_pos 2112) Nat.one_pos

theorem witness_DecoderProcedure_reserved_op : 14 ≤ (0xE0#8 : Command).toNat / 16 := by decide
theorem witness_DecoderProcedure_reserved_rb :
    (0xD3#8 : Command).toNat / 16 < 14 ∧
      ¬(6 ≤ (0xD3#8 : Command).toNat / 16 ∧ (0xD3#8 : Command).toNat / 16 ≤ 9) ∧
      (0xD3#8 : Command).toNat % 4 ≠ 0 := by decide
theorem witness_DecoderProcedure_format_b :
    (0x9B#8 : Command).toNat / 16 < 14 ∧
      (6 ≤ (0x9B#8 : Command).toNat / 16 ∧ (0x9B#8 : Command).toNat / 16 ≤ 9 ∨ (0x9B#8 : Command).toNat % 4 = 0) := by
  decide
theorem witness_DecoderProcedure_format_u :
    (0xDC#8 : Command).toNat / 16 < 14 ∧
      (6 ≤ (0xDC#8 : Command).toNat / 16 ∧ (0xDC#8 : Command).toNat / 16 ≤ 9 ∨ (0xDC#8 : Command).toNat % 4 = 0) := by
  decide
theorem witness_MatchAndMask_legal : decode 0x6A#8 = .ok (.add 2 2) := by decide
theorem witness_MatchAndMask_illegal : decode 0xEF#8 = .error (.reservedOpcode 0xE#4) := by decide
theorem witness_EncodedCommands : decode 0xA8#8 = .ok (.rand 2) := by decide

theorem witness_StepRunsTheDecodedCommand :
    (withProgram [addTransaction] fiveAndZero).pending = .command addTransaction :: [] ∧
      decode addTransaction.cmd = .ok (.add 0 1) := ⟨rfl, by decide⟩
theorem witness_IllegalCommand :
    (withProgram [⟨0x59#8, 0#2112, 0#2112⟩] fiveAndZero).pending = .command ⟨0x59#8, 0#2112, 0#2112⟩ :: [] ∧
      decode 0x59#8 = .error (.reservedRb 5#4 1#2) := ⟨rfl, by decide⟩
theorem witness_ResetEventWins :
    ({ fiveAndZero with pending := [.reset (some addTransaction)] } : State).pending =
      .reset (some addTransaction) :: [] := rfl
theorem witness_ResetEventWins_alone :
    ({ fiveAndZero with pending := [.reset none] } : State).pending = .reset none :: [] := rfl
theorem witness_WhatConstructs_exec : ∃ t : State, exec (.load 2) fiveAndZero = .next t := ⟨_, rfl⟩
theorem witness_WhatConstructs_unconstructs :
    ∃ t : State, step { fiveAndZero with pending := [.reset none] } = .next t ∧
      fiveAndZero.constructed.get 0 = true ∧ t.constructed.get 0 = false := ⟨_, rfl, rfl, rfl⟩
theorem witness_IdleStep : State.reset.pending = [] := rfl

theorem witness_Iszero_zero_register : val (readReg 1 fiveAndZero) = 0 := by decide +kernel

theorem witness_ShiftRoundTrips_double_exact :
    ∃ t u : State, exec (.mul2 0) fiveAndZero = .next t ∧ exec (.div2 0) t = .next u ∧
      bitOf (readReg 0 fiveAndZero) 2111 = false := ⟨_, _, rfl, rfl, by decide +kernel⟩
theorem witness_ShiftRoundTrips_double_lossy :
    ∃ t u : State, exec (.mul2 0) (twoRegs (B [at1 32 allOnes]) (big 0)) = .next t ∧ exec (.div2 0) t = .next u ∧
      bitOf (readReg 0 (twoRegs (B [at1 32 allOnes]) (big 0))) 2111 = true := ⟨_, _, rfl, rfl, by decide +kernel⟩
theorem witness_ShiftRoundTrips_halve_exact :
    ∃ t u : State, exec (.div2 1) fiveAndZero = .next t ∧ exec (.mul2 1) t = .next u ∧
      bitOf (readReg 1 fiveAndZero) 0 = false := ⟨_, _, rfl, rfl, by decide +kernel⟩
theorem witness_ShiftRoundTrips_halve_lossy :
    ∃ t u : State, exec (.div2 0) fiveAndZero = .next t ∧ exec (.mul2 0) t = .next u ∧
      bitOf (readReg 0 fiveAndZero) 0 = true := ⟨_, _, rfl, rfl, by decide +kernel⟩

theorem witness_Nbits_all_zero : ∀ i : Fin 33, (readReg 1 fiveAndZero).get i = 0#64 := by decide +kernel
theorem witness_Nbits_limb_0 :
    (readReg 0 fiveAndZero).get 0 ≠ 0#64 ∧ ∀ i : Fin 33, 0 < i → (readReg 0 fiveAndZero).get i = 0#64 := by
  decide +kernel
theorem witness_Nbits_limb_32 :
    (readReg 0 (twoRegs (B [at1 32 1#64]) (big 0))).get 32 ≠ 0#64 ∧
      ∀ i : Fin 33, 32 < i → (readReg 0 (twoRegs (B [at1 32 1#64]) (big 0))).get i = 0#64 := by
  decide +kernel
theorem witness_NbitsClosedForm_unique :
    val (readReg 0 fiveAndZero) ≠ 0 ∧ 1 ≤ 3 ∧ 2 ^ (3 - 1) ≤ val (readReg 0 fiveAndZero) ∧
      val (readReg 0 fiveAndZero) < 2 ^ 3 := by decide +kernel
theorem witness_NbitsIsMonotone_order : val (readReg 1 fiveAndZero) ≤ val (readReg 0 fiveAndZero) := by decide +kernel
theorem witness_NbitsIsMonotone_double :
    ∃ t : State, exec (.mul2 0) fiveAndZero = .next t ∧ bitOf (readReg 0 fiveAndZero) 2111 = false ∧
      val (readReg 0 fiveAndZero) ≠ 0 := ⟨_, rfl, by decide +kernel, by decide +kernel⟩
theorem witness_NbitsIsMonotone_halve :
    ∃ t : State, exec (.div2 0) (twoRegs (big 1) (big 0)) = .next t ∧
      val (readReg 0 (twoRegs (big 1) (big 0))) ≠ 0 := ⟨_, rfl, by decide +kernel⟩

theorem witness_AddSub_zero_operand : val (readReg 1 fiveAndZero) = 0 := by decide +kernel
theorem witness_AddSub_equal_operands :
    readReg 0 (twoRegs (big 5) (big 5)) = readReg 1 (twoRegs (big 5) (big 5)) := rfl
theorem witness_AddSub_two_registers : (0 : Reg) ≠ 1 := by decide
theorem witness_AddSub_different_operands : readReg 0 fiveAndZero ≠ readReg 1 fiveAndZero := by decide +kernel

theorem witness_Cmp_all_equal :
    ∀ i : Fin 33, (readReg 0 (twoRegs (big 5) (big 5))).get i = (readReg 1 (twoRegs (big 5) (big 5))).get i :=
  fun _ => rfl
theorem witness_Cmp_limb_0 :
    (∀ i : Fin 33, 0 < i → (readReg 0 fiveAndZero).get i = (readReg 1 fiveAndZero).get i) ∧
      ((readReg 1 fiveAndZero).get 0).toNat < ((readReg 0 fiveAndZero).get 0).toNat := by decide +kernel
theorem witness_Cmp_limb_32 :
    (∀ i : Fin 33, 32 < i → (B []).get i = (B [at1 32 1#64]).get i) ∧
      ((B []).get 32).toNat < ((B [at1 32 1#64]).get 32).toNat := by decide +kernel
theorem witness_ComparatorClosedForm_transitive :
    compareBig (big 0) (big 5) = .less ∧ compareBig (big 5) (B [at1 32 1#64]) = .less := by decide +kernel
theorem witness_ComparatorClosedForm_total : big 0 ≠ big 5 := by decide +kernel

/-- The bracketing that combines from the most significant limb downward. -/
def combTree : List Comparison → CompareTree
  | [] => .leaf .equal
  | [c] => .leaf c
  | c :: cs => .node (.leaf c) (combTree cs)

theorem witness_ComparatorTree :
    treeLeaves (combTree (limbAnswers (big 5) (B [at1 32 1#64]))) = limbAnswers (big 5) (B [at1 32 1#64]) := by
  decide +kernel
theorem witness_EqAndCmpAgree_zero : val (readReg 1 fiveAndZero) = 0 := by decide +kernel

theorem witness_RegistersAreIndependent : (3 : Reg) ≠ 0 := by decide
theorem witness_CommandsChangeOnly_rand :
    ∃ t : State, exec (.rand 2) fiveAndZero = .next t ∧ writes (.rand 2) ≠ some 3 ∧ constructs (.rand 2) ≠ some 3 :=
  ⟨_, rfl, by decide, by decide⟩
theorem witness_CommandsChangeOnly_other :
    ∃ t : State, exec (.cmp 0 1) fiveAndZero = .next t ∧ (∀ r : Reg, writes (.cmp 0 1) ≠ some r) ∧
      ∀ r : Reg, Instr.cmp 0 1 ≠ .rand r := ⟨_, rfl, by decide, by decide⟩
theorem witness_CommandsReadOnly :
    (∀ r : Reg, r ∈ reads (.div2 0) → readReg r fiveAndZero = readReg r (twoRegs (big 5) (big 9))) ∧
      fiveAndZero.ports.din = (twoRegs (big 5) (big 9)).ports.din ∧
      fiveAndZero.ports.rnd = (twoRegs (big 5) (big 9)).ports.rnd ∧
      (∃ s' : State, exec (.div2 0) fiveAndZero = .next s') ∧
      (∃ t' : State, exec (.div2 0) (twoRegs (big 5) (big 9)) = .next t') ∧ writes (.div2 0) = some 0 :=
  ⟨by intro r hr; obtain rfl := List.mem_singleton.mp hr; rfl, rfl, rfl, ⟨_, rfl⟩, ⟨_, rfl⟩, rfl⟩
theorem witness_DataPorts_din : ∀ r : Reg, Instr.rand 0 ≠ .load r ∧ Instr.rand 0 ≠ .widen r := by decide
theorem witness_DataPorts_rnd : ∀ r : Reg, Instr.load 0 ≠ .rand r := by decide
theorem witness_DataPorts_widen :
    Instr.widen 1 = .widen 1 ∧
      (2 ^ 64 : DataPort).extractLsb' 0 64 =
        ({ fiveAndZero with ports := ⟨0#8, 0#2112, 0#2112⟩ } : State).ports.din.extractLsb' 0 64 := ⟨rfl, by decide +kernel⟩
theorem witness_Headroom_rand : ∃ t : State, exec (.rand 3) fiveAndZero = .next t := ⟨_, rfl⟩

theorem witness_EveryTransaction : ∃ t : State, performAll [addTransaction] fiveAndZero = .next t := ⟨_, rfl⟩
theorem witness_StepKeepsTheObservation :
    observationWf (withProgram [addTransaction] fiveAndZero) ∧
      ∃ t : State, step (withProgram [addTransaction] fiveAndZero) = .next t :=
  ⟨⟨rfl, rfl, Nat.le_refl 0⟩, ⟨_, rfl⟩⟩
theorem witness_StrictReading_fault : (0 : Reg) ∈ reads (.isodd 0) ∧ State.reset.constructed.get 0 = false :=
  ⟨by decide, rfl⟩
theorem witness_StrictReading_runs : ∀ r : Reg, r ∈ reads (.add 0 1) → fiveAndZero.constructed.get r = true := by
  decide
theorem witness_StrictReading_step : ∃ t : State, strictStep (withProgram [addTransaction] fiveAndZero) = .next t :=
  ⟨_, rfl⟩

/-- `fiveAndZero` with other contents in the unconstructed register `x3`. -/
def fiveAndZeroOther : State := writeReg 3 (big 9) fiveAndZero

theorem witness_UnconstructedContents :
    agreeOnConstructed (withProgram [addTransaction] fiveAndZero) (withProgram [addTransaction] fiveAndZeroOther) ∧
      readReg 3 fiveAndZero ≠ readReg 3 fiveAndZeroOther ∧
      ∃ s' : State, strictRun 1 (withProgram [addTransaction] fiveAndZero) = .next s' := by
  refine ⟨⟨?_, rfl, rfl, rfl, rfl, rfl, rfl⟩, by decide +kernel, ⟨_, rfl⟩⟩
  intro r
  fin_cases r
  · exact fun _ => rfl
  · exact fun _ => rfl
  · exact fun _ => rfl
  · exact fun h => Bool.noConfusion h
theorem witness_StrictStepLeavesUntouched :
    unconstructedUntouched (withProgram [zeroTransaction 0 0#2112] State.reset) ∧
      ∃ t : State, strictStep (withProgram [zeroTransaction 0 0#2112] State.reset) = .next t := by
  refine ⟨?_, ⟨_, rfl⟩⟩
  intro r _
  fin_cases r <;> rfl

end Sys2Proof.Machine
end

section
/-! The packing of a value on a port, `20_memory.md` R24. Packing and unpacking both keep `val`, which makes them
inverse; what driving a value puts on a port is then what reading that port back gives. -/

namespace Sys2Proof.Machine

theorem get_bigOfPort (p : DataPort) (i : Fin 33) : (bigOfPort p).get i = portLimb p i.val := by
  rw [get_eq_toList]
  simp [bigOfPort]

@[simp] theorem bigOfPort_portOfBig (v : Big) : bigOfPort (portOfBig v) = v :=
  val_inj ((val_bigOfPort _).trans (toNat_portOfBig v))

@[simp] theorem portOfBig_bigOfPort (p : DataPort) : portOfBig (bigOfPort p) = p :=
  BitVec.eq_of_toNat_eq ((toNat_portOfBig _).trans (val_bigOfPort p))

theorem portLimb_portOfBig (v : Big) (i : Fin 33) : portLimb (portOfBig v) i.val = v.get i := by
  rw [← get_bigOfPort, bigOfPort_portOfBig]

theorem getLsbD_portOfBig (v : Big) (k : Nat) (hk : k < 2112) : (portOfBig v).getLsbD k = bitOf v k := by
  rw [← bitOf_bigOfPort _ k hk, bigOfPort_portOfBig]

/-- Settles O8: the reading direction is the definition of a port's limbs and bits, and the driving direction follows
because reading back what was driven gives the value. -/
theorem portPacking : Obligations.PortPacking := fun p v =>
  ⟨get_bigOfPort p, portLimb_portOfBig v,
    fun k => (bitOf_bigOfPort p k.val k.isLt).symm, fun k => getLsbD_portOfBig v k.val k.isLt,
    (val_bigOfPort p).symm, toNat_portOfBig v, bigOfPort_portOfBig v, portOfBig_bigOfPort p⟩

end Sys2Proof.Machine
end

section
/-! The decoder, said once for all bytes (`30_encoding.md` R37): which of the three kinds of row of the opcode map the
byte's `op` selects, and what decoding answers there. Decoding and encoding of commands (R39) follow from it. -/

namespace Sys2Proof

/-! ### The fields of a byte, as numbers -/

theorem toNat_splitFields_op (c : Command) : (splitFields c).op.toNat = c.toNat / 16 := by
  have h := c.isLt
  simp only [splitFields, BitVec.extractLsb'_toNat, Nat.shiftRight_eq_div_pow]
  omega

theorem opDefined_splitFields (c : Command) : (splitFields c).opDefined = true ↔ c.toNat / 16 < 14 := by
  simp [CommandFields.opDefined, toNat_splitFields_op]

theorem formatB_splitFields (c : Command) :
    (splitFields c).formatB = true ↔ 6 ≤ c.toNat / 16 ∧ c.toNat / 16 ≤ 9 := by
  simp [CommandFields.formatB, toNat_splitFields_op]

theorem splitFields_rb_eq_zero (c : Command) : (splitFields c).rb = 0#2 ↔ c.toNat % 4 = 0 := by
  simp [splitFields, ← BitVec.toNat_inj]

@[simp] theorem regOfField_fieldOfReg (r : Reg) : regOfField (fieldOfReg r) = r := by
  revert r
  decide

@[simp] theorem fieldOfReg_regOfField (b : BitVec 2) : fieldOfReg (regOfField b) = b :=
  BitVec.eq_of_toNat_eq (by simp [fieldOfReg, regOfField])

@[simp] theorem splitFields_joinFields (f : CommandFields) : splitFields (joinFields f) = f := by
  obtain ⟨op, ra, rb⟩ := f
  have hop : (op ++ ra ++ rb).extractLsb' 4 4 = op :=
    (BitVec.extractLsb'_append_eq_of_le (by decide)).trans BitVec.extractLsb'_append_eq_left
  have hra : (op ++ ra ++ rb).extractLsb' 2 2 = ra :=
    (BitVec.extractLsb'_append_eq_of_le le_rfl).trans BitVec.extractLsb'_append_eq_right
  have hrb : (op ++ ra ++ rb).extractLsb' 0 2 = rb := BitVec.extractLsb'_append_eq_right
  simp only [splitFields, joinFields, hop, hra, hrb]

/-! ### What the decoder answers -/

/-- The row that a byte's `op` selects: a format-U row, a format-B row (each with its constructor `mk`), or a reserved
opcode. -/
theorem decode_cases (c : Command) :
    ((splitFields c).opDefined = true ∧ (splitFields c).formatB = false ∧
      ∃ mk, decode c = decodeU mk (splitFields c) ∧
        ∀ ra, encodeFields (mk ra) = ⟨(splitFields c).op, fieldOfReg ra, 0#2⟩) ∨
    ((splitFields c).opDefined = true ∧ (splitFields c).formatB = true ∧
      ∃ mk, decode c = decodeB mk (splitFields c) ∧
        ∀ ra rb, encodeFields (mk ra rb) = ⟨(splitFields c).op, fieldOfReg ra, fieldOfReg rb⟩) ∨
    ((splitFields c).opDefined = false ∧ decode c = .error (.reservedOpcode (splitFields c).op)) := by
  simp only [decode]
  obtain ⟨op, ra, rb⟩ := splitFields c
  dsimp only
  split
  case h_1 => exact .inl ⟨rfl, rfl, .isodd, rfl, fun _ => rfl⟩
  case h_2 => exact .inl ⟨rfl, rfl, .iseven, rfl, fun _ => rfl⟩
  case h_3 => exact .inl ⟨rfl, rfl, .iszero, rfl, fun _ => rfl⟩
  case h_4 => exact .inl ⟨rfl, rfl, .div2, rfl, fun _ => rfl⟩
  case h_5 => exact .inl ⟨rfl, rfl, .mul2, rfl, fun _ => rfl⟩
  case h_6 => exact .inl ⟨rfl, rfl, .nbits, rfl, fun _ => rfl⟩
  case h_7 => exact .inr (.inl ⟨rfl, rfl, .add, rfl, fun _ _ => rfl⟩)
  case h_8 => exact .inr (.inl ⟨rfl, rfl, .sub, rfl, fun _ _ => rfl⟩)
  case h_9 => exact .inr (.inl ⟨rfl, rfl, .cmp, rfl, fun _ _ => rfl⟩)
  case h_10 => exact .inr (.inl ⟨rfl, rfl, .eq, rfl, fun _ _ => rfl⟩)
  case h_11 => exact .inl ⟨rfl, rfl, .rand, rfl, fun _ => rfl⟩
  case h_12 => exact .inl ⟨rfl, rfl, .load, rfl, fun _ => rfl⟩
  case h_13 => exact .inl ⟨rfl, rfl, .widen, rfl, fun _ => rfl⟩
  case h_14 => exact .inl ⟨rfl, rfl, .read, rfl, fun _ => rfl⟩
  case h_15 =>
    refine .inr (.inr ⟨?_, rfl⟩)
    simp only [imp_false, ← BitVec.toNat_inj, BitVec.toNat_ofNat, Nat.reducePow, Nat.reduceMod] at *
    simp only [CommandFields.opDefined, decide_eq_false_iff_not]
    omega

theorem decode_reservedOpcode {c : Command} (hop : (splitFields c).opDefined = false) :
    decode c = .error (.reservedOpcode (splitFields c).op) := by
  rcases decode_cases c with ⟨hdef, -⟩ | ⟨hdef, -⟩ | ⟨-, hdec⟩
  · simp [hop] at hdef
  · simp [hop] at hdef
  · exact hdec

theorem decode_reservedRb {c : Command} (hop : (splitFields c).opDefined = true)
    (hfmt : (splitFields c).formatB = false) (hrb : (splitFields c).rb ≠ 0#2) :
    decode c = .error (.reservedRb (splitFields c).op (splitFields c).rb) := by
  rcases decode_cases c with ⟨-, -, mk, hdec, -⟩ | ⟨-, hB, -⟩ | ⟨hdef, -⟩
  · rw [hdec, decodeU, if_neg hrb]
  · simp [hfmt] at hB
  · simp [hop] at hdef

theorem decode_wellFormed {c : Command} (h : (splitFields c).wellFormed = true) :
    ∃ i, decode c = .ok i ∧ encodeFields i = splitFields c := by
  obtain ⟨hop, hrb⟩ : (splitFields c).opDefined = true ∧ (splitFields c).rbAllowed = true := by
    simpa [CommandFields.wellFormed] using h
  rcases decode_cases c with ⟨-, hU, mk, hdec, henc⟩ | ⟨-, -, mk, hdec, henc⟩ | ⟨hdef, -⟩
  · have hrb0 : (splitFields c).rb = 0#2 := by simpa [CommandFields.rbAllowed, hU] using hrb
    refine ⟨mk (regOfField (splitFields c).ra), by rw [hdec, decodeU, if_pos hrb0], ?_⟩
    rw [henc, fieldOfReg_regOfField, ← hrb0]
  · refine ⟨mk (regOfField (splitFields c).ra) (regOfField (splitFields c).rb), by rw [hdec, decodeB], ?_⟩
    rw [henc, fieldOfReg_regOfField, fieldOfReg_regOfField]
  · simp [hop] at hdef

/-- The byte of a command decodes to it, `30_encoding.md` R37, R39. -/
@[simp] theorem decode_encode (i : Instr) : decode (encode i) = .ok i := by
  cases i <;> simp [decode, encode, encodeFields, decodeU, decodeB]

/-- The 10 format-U opcodes have 4 legal bytes each and the 4 format-B opcodes 16 each, `30_encoding.md` R37. -/
theorem legal_byte_count :
    ((List.range 256).filter fun n => (decode (BitVec.ofNat 8 n)).toOption.isSome).length = 104 := by
  decide +kernel

/-- 32 bytes have a reserved opcode and 120 a reserved `rb`, `30_encoding.md` R40, R41. -/
theorem illegal_byte_count :
    ((List.range 256).filter fun n => (decode (BitVec.ofNat 8 n)).toOption.isNone).length = 152 := by
  decide +kernel

/-- Settles O10: the hypotheses on the byte's number are the checks on its fields, and the decoder answers as those
checks say. -/
theorem decoderFollowsTheProcedure : Obligations.DecoderFollowsTheProcedure := by
  refine ⟨fun c hop => ?_, fun c hop hfmt hrb => ?_, fun c hop hlegal => ?_, legal_byte_count, illegal_byte_count⟩
  · refine decode_reservedOpcode (Bool.eq_false_iff.mpr fun hdef => ?_)
    have := (opDefined_splitFields c).mp hdef
    omega
  · exact decode_reservedRb ((opDefined_splitFields c).mpr hop)
      (Bool.eq_false_iff.mpr fun hB => hfmt ((formatB_splitFields c).mp hB))
      fun h0 => hrb ((splitFields_rb_eq_zero c).mp h0)
  · have hwf : (splitFields c).wellFormed = true := by
      rw [← opDefined_splitFields] at hop
      rw [← formatB_splitFields, ← splitFields_rb_eq_zero] at hlegal
      simpa [CommandFields.wellFormed, CommandFields.rbAllowed, hop] using hlegal
    obtain ⟨i, hdec, henc⟩ := decode_wellFormed hwf
    exact ⟨i, hdec, congrArg CommandFields.op henc, congrArg CommandFields.ra henc, congrArg CommandFields.rb henc⟩

end Sys2Proof
end

section
/-! A transaction of a construction or of `READ`, and the pseudo-instructions made of them (`30_encoding.md` R45,
`46_construct_read.md` R78). -/

namespace Sys2Proof.Machine

theorem performTransaction_encode {t : Transaction} {i : Instr} (hcmd : t.cmd = encode i) (s : State) :
    performTransaction t s = exec i { s with ports := t } := by
  simp [performTransaction, performPorts, hcmd]

/-- A construction replaces its register and no other. -/
theorem construct_regs (ra : Reg) (v : Big) (s : State) :
    ∃ t, construct ra v s = .next t ∧ readReg ra t = v ∧ ∀ r, r ≠ ra → readReg r t = readReg r s :=
  ⟨_, rfl, by simp, fun _ hr => by simp [readReg_writeReg_ne hr]⟩

/-- `WIDEN xa` leaves the low word of `DIN` in `x[ra]`, whatever is on `RND`, `46_construct_read.md` R81. -/
theorem performTransaction_widen {t : Transaction} {ra : Reg} (hcmd : t.cmd = encode (.widen ra)) (s : State) :
    ∃ u, performTransaction t s = .next u ∧ val (readReg ra u) = t.din.toNat % 2 ^ 64 ∧
      ∀ r, r ≠ ra → readReg r u = readReg r s := by
  obtain ⟨u, hnext, hval, hframe⟩ := construct_regs ra (bigOfWord (t.din.extractLsb' 0 64)) { s with ports := t }
  refine ⟨u, (performTransaction_encode hcmd s).trans hnext, ?_, hframe⟩
  rw [hval, val_bigOfWord]
  simp

/-- `LOAD xa` leaves the whole of `DIN` in `x[ra]`, `46_construct_read.md` R80. -/
theorem performTransaction_load {t : Transaction} {ra : Reg} (hcmd : t.cmd = encode (.load ra)) (s : State) :
    ∃ u, performTransaction t s = .next u ∧ readReg ra u = bigOfPort t.din ∧
      ∀ r, r ≠ ra → readReg r u = readReg r s := by
  obtain ⟨u, hnext, hval, hframe⟩ := construct_regs ra (bigOfPort t.din) { s with ports := t }
  exact ⟨u, (performTransaction_encode hcmd s).trans hnext, hval, hframe⟩

/-- `READ xa` answers `x[ra]` on `DOUT` and changes no register, `46_construct_read.md` R82. -/
theorem performTransaction_read {t : Transaction} {ra : Reg} (hcmd : t.cmd = encode (.read ra)) (s : State) :
    performTransaction t s = .next (answer (doutResponse (readReg ra s)) { s with ports := t }) :=
  performTransaction_encode hcmd s

/-- Settles O45: `ZERO` and `ONE` are `WIDEN` of 0 and 1; `COPY` drives the register on `DOUT` and loads it from there,
and a port reads back the value driven on it. -/
theorem pseudoInstructions : Obligations.PseudoInstructions := by
  refine ⟨fun ra rnd s => ?_, fun ra rnd s => ?_, fun ra rb din rnd rnd' s => ?_⟩
  · simpa only [zeroTransaction, BitVec.toNat_zero, Nat.zero_mod]
      using performTransaction_widen (t := zeroTransaction ra rnd) rfl s
  · simpa only [oneTransaction, BitVec.toNat_one (show 0 < 2112 by decide), Nat.reducePow, Nat.reduceMod]
      using performTransaction_widen (t := oneTransaction ra rnd) rfl s
  · have hread := performTransaction_read (t := copyReadTransaction rb din rnd) rfl s
    obtain ⟨u, hload, hval, hframe⟩ := performTransaction_load
      (t := copyLoadTransaction ra (portOfBig (readReg rb s)) rnd') rfl
      (answer (doutResponse (readReg rb s)) { s with ports := copyReadTransaction rb din rnd })
    exact ⟨portOfBig (readReg rb s), _, u, hread, rfl, hload, hval.trans (bigOfPort_portOfBig _), hframe⟩

end Sys2Proof.Machine
end

section
/-! The two cells of `40_word_primitives.md`. Each cell's law (`adc64_val`, `sbb64_val`) has one solution in a word and a
bit, so whatever meets the law is what the cell answers. The flag forms meet it because each of their two steps meets the
law of a wrapping addition or subtraction. -/

namespace Sys2Proof.Machine

/-! ### The law has one solution -/

theorem bit_eq_of_toNat_eq : ∀ {x y : Bit}, x.toNat = y.toNat → x = y := by decide

theorem adc64_eq_of_law {a b r : Word} {c k : Bit}
    (h : r.toNat + 2 ^ 64 * k.toNat = a.toNat + b.toNat + c.toNat) : adc64 a b c = (r, k) := by
  have hcell := adc64_val a b c
  have hr := r.isLt
  have hw := (adc64 a b c).1.isLt
  have hword : (adc64 a b c).1 = r := BitVec.eq_of_toNat_eq (by omega)
  have hcarry : (adc64 a b c).2 = k := bit_eq_of_toNat_eq (by omega)
  exact Prod.ext hword hcarry

theorem sbb64_eq_of_law {a b r : Word} {c k : Bit}
    (h : (r.toNat : Int) - 2 ^ 64 * k.toNat = (a.toNat : Int) - b.toNat - c.toNat) : sbb64 a b c = (r, k) := by
  have hcell := sbb64_val a b c
  have hr := r.isLt
  have hw := (sbb64 a b c).1.isLt
  have hword : (sbb64 a b c).1 = r := BitVec.eq_of_toNat_eq (by omega)
  have hborrow : (sbb64 a b c).2 = k := bit_eq_of_toNat_eq (by omega)
  exact Prod.ext hword hborrow

theorem adc64_carry_iff (a b : Word) (c : Bit) :
    (adc64 a b c).2 = true ↔ 2 ^ 64 ≤ a.toNat + b.toNat + c.toNat :=
  decide_eq_true_iff

theorem sbb64_borrow_iff (a b : Word) (c : Bit) :
    (sbb64 a b c).2 = true ↔ (a.toNat : Int) - b.toNat - c.toNat < 0 :=
  decide_eq_true_iff

/-! ### One step of a flag form -/

/-- A wrapping sum is below its first summand exactly when it wrapped. -/
theorem add_wrap_law (x y : Word) :
    (x + y).toNat + 2 ^ 64 * (decide (x + y < x)).toNat = x.toNat + y.toNat := by
  have hx := x.isLt
  have hy := y.isLt
  have hsum := BitVec.toNat_add x y
  by_cases h : x + y < x
  · rw [decide_eq_true h, Bool.toNat_true]
    rw [BitVec.lt_def] at h
    omega
  · rw [decide_eq_false h, Bool.toNat_false]
    rw [BitVec.lt_def] at h
    omega

theorem sub_wrap_law (x y : Word) :
    ((x - y).toNat : Int) - 2 ^ 64 * (decide (x < y)).toNat = (x.toNat : Int) - y.toNat := by
  have hy := y.isLt
  by_cases h : x < y
  · rw [decide_eq_true h, Bool.toNat_true, BitVec.toNat_sub_of_lt h]
    rw [BitVec.lt_def] at h
    omega
  · rw [decide_eq_false h, Bool.toNat_false, BitVec.toNat_sub_of_le (BitVec.not_lt.mp h)]
    rw [BitVec.lt_def] at h
    omega

theorem wordOfBit_toNat : ∀ c : Bit, (wordOfBit c).toNat = c.toNat := by decide

/-! ### Both steps together -/

theorem adc64Flags_val (a b : Word) (c : Bit) :
    (adc64Flags a b c).1.toNat + 2 ^ 64 * ((adc64Flags a b c).2.1.toNat + (adc64Flags a b c).2.2.toNat) =
      a.toNat + b.toNat + c.toNat := by
  have h1 := add_wrap_law a b
  have h2 := add_wrap_law (a + b) (wordOfBit c)
  rw [wordOfBit_toNat] at h2
  simp only [adc64Flags]
  omega

theorem sbb64Flags_val (a b : Word) (c : Bit) :
    ((sbb64Flags a b c).1.toNat : Int) - 2 ^ 64 * ((sbb64Flags a b c).2.1.toNat + (sbb64Flags a b c).2.2.toNat) =
      (a.toNat : Int) - b.toNat - c.toNat := by
  have h1 := sub_wrap_law a b
  have h2 := sub_wrap_law (a - b) (wordOfBit c)
  rw [wordOfBit_toNat] at h2
  simp only [sbb64Flags]
  omega

theorem and_eq_false_of_toNat_add_le_one : ∀ {x y : Bit}, x.toNat + y.toNat ≤ 1 → (x && y) = false := by decide

theorem or_toNat_of_and_eq_false : ∀ {x y : Bit}, (x && y) = false → (x || y).toNat = x.toNat + y.toNat := by decide

/-- Two carries would make the sum at least `2^65`, which no operands reach. -/
theorem adc64Flags_exclusive (a b : Word) (c : Bit) :
    ((adc64Flags a b c).2.1 && (adc64Flags a b c).2.2) = false := by
  have h := adc64Flags_val a b c
  have ha := a.isLt
  have hb := b.isLt
  have hc := Bool.toNat_le c
  exact and_eq_false_of_toNat_add_le_one (by omega)

/-- Two borrows would make the difference less than `-2^64`, which no operands reach. -/
theorem sbb64Flags_exclusive (a b : Word) (c : Bit) :
    ((sbb64Flags a b c).2.1 && (sbb64Flags a b c).2.2) = false := by
  have h := sbb64Flags_val a b c
  have hr := (sbb64Flags a b c).1.isLt
  have hb := b.isLt
  have hc := Bool.toNat_le c
  exact and_eq_false_of_toNat_add_le_one (by omega)

theorem adc64_eq_flagForm (a b : Word) (c : Bit) :
    adc64 a b c = ((adc64Flags a b c).1, (adc64Flags a b c).2.1 || (adc64Flags a b c).2.2) := by
  apply adc64_eq_of_law
  rw [or_toNat_of_and_eq_false (adc64Flags_exclusive a b c)]
  exact adc64Flags_val a b c

theorem sbb64_eq_flagForm (a b : Word) (c : Bit) :
    sbb64 a b c = ((sbb64Flags a b c).1, (sbb64Flags a b c).2.1 || (sbb64Flags a b c).2.2) := by
  apply sbb64_eq_of_law
  rw [or_toNat_of_and_eq_false (sbb64Flags_exclusive a b c)]
  exact_mod_cast sbb64Flags_val a b c

/-- Settles O3: the word of the flag form and the sum of its partial flags meet the cell's law; the sum is at most 1, so it
is the or of the two flags. -/
theorem flagFormsEqualTheCells : Obligations.FlagFormsEqualTheCells := fun a b c =>
  ⟨adc64_eq_flagForm a b c, adc64Flags_exclusive a b c, sbb64_eq_flagForm a b c, sbb64Flags_exclusive a b c⟩

/-! ### The cells as residue and carry, difference and borrow -/

/-- Settles O1: quotient and remainder by `2^64` are read off the cell's law. -/
theorem adcCellComputesSumAndCarry : Obligations.AdcCellComputesSumAndCarry := by
  refine ⟨fun a b c => ?_, adc64_eq_of_law rfl⟩
  have hlaw := adc64_val a b c
  have hw := (adc64 a b c).1.isLt
  have ha := a.isLt
  have hb := b.isLt
  have hc := Bool.toNat_le c
  exact ⟨by omega, by omega, by omega, adc64_carry_iff a b c, hlaw.symm⟩

/-- Settles O2: the borrow is 1 exactly for a negative difference, and the law then gives the word; the unreduced
`b + c = 2^64` exceeds every word. -/
theorem sbbCellComputesDifferenceAndBorrow : Obligations.SbbCellComputesDifferenceAndBorrow := by
  refine ⟨fun a b c => ?_, fun a => ?_, sbb64_eq_of_law rfl⟩
  · have hlaw := sbb64_val a b c
    have hw := (sbb64 a b c).1.isLt
    have hk := Bool.toNat_le (sbb64 a b c).2
    have hborrow := sbb64_borrow_iff a b c
    exact ⟨by omega, by omega, by omega, hborrow, hborrow.trans (by omega), hlaw.symm⟩
  · have ha := a.isLt
    rw [sbb64_borrow_iff, Bool.toNat_true, BitVec.toNat_ofNat]
    omega

/-! ### Consequences -/

theorem adc64_zero (a : Word) : adc64 a 0#64 false = (a, false) :=
  adc64_eq_of_law rfl

theorem sbb64_zero (a : Word) : sbb64 a 0#64 false = (a, false) :=
  sbb64_eq_of_law (by simp)

theorem sbb64_self (a : Word) : sbb64 a a false = (0#64, false) :=
  sbb64_eq_of_law (by simp)

theorem adc64_comm (a b : Word) (c : Bit) : adc64 a b c = adc64 b a c :=
  adc64_eq_of_law ((adc64_val b a c).trans (by rw [Nat.add_comm b.toNat]))

/-- Settles O4: each equation is a solution of the cell's law; `0 - 1` borrows and `1 - 0` does not, so the subtracting cell
is not commutative. -/
theorem cellConsequences : Obligations.CellConsequences :=
  ⟨adc64_zero, sbb64_zero, sbb64_self, adc64_comm, 0#64, 1#64, false, by decide⟩

end Sys2Proof.Machine
end

section
/-! The byte of a command as a number, `30_encoding.md` R39. -/

namespace Sys2Proof

theorem toNat_joinFields (f : CommandFields) :
    (joinFields f).toNat = 16 * f.op.toNat + 4 * f.ra.toNat + f.rb.toNat := by
  have hra := f.ra.isLt
  have hrb := f.rb.isLt
  rw [joinFields, BitVec.toNat_append, BitVec.toNat_append, ← Nat.shiftLeft_add_eq_or_of_lt hrb,
    ← Nat.shiftLeft_add_eq_or_of_lt hra, Nat.shiftLeft_eq, Nat.shiftLeft_eq]
  omega

@[simp] theorem toNat_fieldOfReg (r : Reg) : (fieldOfReg r).toNat = r.val :=
  Nat.mod_eq_of_lt r.isLt

/-- The byte of a format-U command, `30_encoding.md` R39. -/
theorem toNat_encode_formatU {i : Instr} {ra : Reg} (op : BitVec 4) (h : encodeFields i = ⟨op, fieldOfReg ra, 0#2⟩) :
    (encode i).toNat = 16 * op.toNat + 4 * ra.val := by
  rw [encode, h, toNat_joinFields, toNat_fieldOfReg]
  rfl

end Sys2Proof
end

section
/-! The three tests of `41_predicates.md`: what a boolean answer looks like, and the closed form of each test's bit, from
which its relations to the other commands follow. -/

namespace Sys2Proof.Machine

/-! ### A boolean answer -/

/-- A command that only answers a boolean adds one entry and changes nothing else, `41_predicates.md` R52. -/
theorem respond_flagResponse (b : Bit) (s : State) :
    respond (flagResponse b) s =
      .next { s with answers := s.answers ++ [.response ⟨false, b, 0#2, 0#12, 0#2112⟩] } := rfl

theorem responseTo_of_respond {i : Instr} {s : State} {r : Response} (h : exec i s = respond r s) :
    responseTo i s = some r :=
  responseTo_of_answer h

/-! ### Parity -/

theorem oddBit_eq_limb_bit (v : Big) : oddBit v = (v.get 0).getLsbD 0 := rfl

theorem not_oddBit_spec (v : Big) : (!oddBit v) = decide (val v % 2 = 0) := by
  rw [oddBit_spec, ← decide_not]
  exact decide_eq_decide.mpr Nat.mod_two_ne_one

/-- Settles O21: bit 0 of limb 0 is the remainder by 2 of the number (`oddBit_spec`). -/
theorem isoddAnswersTheParity : Obligations.IsoddAnswersTheParity := fun ra s => by
  rw [← oddBit_spec]
  exact ⟨respond_flagResponse _ s, oddBit_eq_limb_bit _, toNat_encode_formatU 0x0#4 rfl⟩

/-- Settles O22: `ISEVEN` answers the negation of the bit `ISODD` answers, and a remainder by 2 that is not 1 is 0. -/
theorem isevenNegatesIsodd : Obligations.IsevenNegatesIsodd := fun ra s => by
  rw [← not_oddBit_spec]
  exact ⟨respond_flagResponse _ s, congrArg (!·) (oddBit_eq_limb_bit _),
    ⟨_, _, responseTo_of_respond rfl, responseTo_of_respond rfl, rfl⟩, toNat_encode_formatU 0x1#4 rfl⟩

/-! ### Zero -/

theorem bitLength_eq_zero_iff (v : Big) : bitLength v = 0 ↔ val v = 0 := by
  constructor
  · intro hlen
    by_contra hne
    obtain ⟨hpos, -⟩ := bitLength_bounds v hne
    omega
  · exact fun hzero => bitLength_zero v ((val_eq_zero_iff v).mp hzero)

theorem bitLength_le (v : Big) : bitLength v ≤ 2112 := by
  by_cases hzero : val v = 0
  · rw [(bitLength_eq_zero_iff v).mpr hzero]
    omega
  · obtain ⟨-, hle, -⟩ := bitLength_bounds v hzero
    exact hle

/-- A bit length fits in the 12 bits of `NB`, `43_bitlength.md` R62. -/
theorem toNat_nbResponse_bitLength (v : Big) : (nbResponse (bitLength v)).nb.toNat = bitLength v :=
  Nat.mod_eq_of_lt (Nat.lt_of_le_of_lt (bitLength_le v) (by decide))

theorem zeroBit_iff_nb_zero (v : Big) : zeroBit v = true ↔ (nbResponse (bitLength v)).nb = 0#12 := by
  rw [zeroBit_spec, decide_eq_true_iff, ← bitLength_eq_zero_iff, ← BitVec.toNat_inj, toNat_nbResponse_bitLength]
  rfl

theorem zeroBit_eq_equalBit {v z : Big} (hz : val z = 0) : zeroBit v = equalBit v z := by
  rw [zeroBit_spec, equalBit_spec, ← hz]
  exact decide_eq_decide.mpr ⟨val_inj, congrArg val⟩

/-- `ISZERO` answers what `EQ` answers against a register that holds zero, `41_predicates.md` R55. -/
theorem responseTo_iszero_eq_responseTo_eq (ra : Reg) {rz : Reg} {s : State} (hz : val (readReg rz s) = 0) :
    responseTo (.iszero ra) s = responseTo (.eq ra rz) s := by
  have hiszero : responseTo (.iszero ra) s = some (flagResponse (zeroBit (readReg ra s))) := responseTo_of_respond rfl
  rw [hiszero, zeroBit_eq_equalBit hz]
  exact (responseTo_of_respond rfl).symm

/-- Settles O23: the scan answers whether the number is 0, which is the one number of bit length 0 and the number of any
register that holds zero. -/
theorem iszeroExaminesAllLimbs : Obligations.IszeroExaminesAllLimbs := fun ra rz s => by
  rw [← zeroBit_spec]
  exact ⟨respond_flagResponse _ s, val_eq_zero_iff _,
    ⟨_, _, responseTo_of_respond rfl, responseTo_of_respond rfl, zeroBit_iff_nb_zero _⟩,
    responseTo_iszero_eq_responseTo_eq ra, toNat_encode_formatU 0x2#4 rfl⟩

end Sys2Proof.Machine
end

section
/-! The shift units of `42_shift.md`. Limb by limb each unit is its loop; bit by bit and as a round trip it follows from its
closed form on the number (`val_div2Big`, `val_mul2Big`), where one bit shifted is a factor of 2. -/

namespace Sys2Proof.Machine

/-! ### A command that writes its receiver and answers nothing -/

/-- The whole next state of a command that reports nothing, `42_shift.md` R56. -/
theorem update_idleResponse (ra : Reg) (v : Big) (s : State) :
    update ra v idleResponse s = .next { s with
      regs := s.regs.set ra.val v ra.isLt
      answers := s.answers ++ [.response ⟨false, false, 0#2, 0#12, 0#2112⟩] } := rfl

theorem readReg_of_update {ra : Reg} {v : Big} {r : Response} {s t : State} (h : update ra v r s = .next t) :
    readReg ra t = v := by
  rw [update_next h, readReg_answer, readReg_writeReg_same]

theorem readReg_of_exec_div2 {ra : Reg} {s t : State} (h : exec (.div2 ra) s = .next t) :
    readReg ra t = div2Big (readReg ra s) :=
  readReg_of_update h

theorem readReg_of_exec_mul2 {ra : Reg} {s t : State} (h : exec (.mul2 ra) s = .next t) :
    readReg ra t = mul2Big (readReg ra s) :=
  readReg_of_update h

/-! ### Limb by limb -/

theorem getD_toList (v : Big) (i : Fin 33) : (v.toList[i.val]?).getD 0#64 = v.get i := by
  rw [get_eq_toList, List.getElem?_eq_getElem (by simp), Option.getD_some]

theorem get_div2Big (v : Big) (i : Fin 33) :
    (div2Big v).get i =
      BitVec.ofBool (((v.toList[i.val + 1]?).getD 0#64).getLsbD 0) ++ (v.get i).extractLsb' 1 63 := by
  rw [get_eq_toList, get_eq_toList]
  exact div2Limbs_getElem v.toList i.val (by simp)

theorem get_div2Big_castSucc (v : Big) (i : Fin 32) :
    (div2Big v).get i.castSucc =
      BitVec.ofBool ((v.get i.succ).getLsbD 0) ++ (v.get i.castSucc).extractLsb' 1 63 := by
  rw [get_div2Big, ← getD_toList v i.succ]
  rfl

/-- No limb stands above limb 32, so a 0 is shifted in. -/
theorem get_div2Big_last (v : Big) :
    (div2Big v).get 32 = BitVec.ofBool false ++ (v.get 32).extractLsb' 1 63 := by
  have habove : (v.toList[(32 : Fin 33).val + 1]?).getD 0#64 = 0#64 := by
    rw [List.getElem?_eq_none (by simp), Option.getD_none]
  rw [get_div2Big, habove, BitVec.getLsbD_zero]

theorem get_mul2Big_succ (v : Big) (i : Fin 32) :
    (mul2Big v).get i.succ =
      (v.get i.succ).extractLsb' 0 63 ++ BitVec.ofBool ((v.get i.castSucc).getLsbD 63) := by
  rw [← getD_toList v i.castSucc, get_eq_toList, get_eq_toList]
  exact mul2Limbs_getElem v.toList false i.succ.val (by rw [Vector.length_toList]; exact i.succ.isLt)

theorem get_mul2Big_zero (v : Big) :
    (mul2Big v).get 0 = (v.get 0).extractLsb' 0 63 ++ BitVec.ofBool false := by
  rw [get_eq_toList, get_eq_toList]
  exact mul2Limbs_getElem v.toList false 0 (by simp)

/-! ### Bit by bit -/

theorem bitOf_eq_false_of_le (v : Big) {k : Nat} (hk : 2112 ≤ k) : bitOf v k = false := by
  rw [← testBit_val]
  exact Nat.testBit_lt_two_pow (Nat.lt_of_lt_of_le (val_lt v) (Nat.pow_le_pow_right Nat.two_pos hk))

theorem bitOf_div2Big (v : Big) (k : Nat) : bitOf (div2Big v) k = bitOf v (k + 1) := by
  rw [← testBit_val, val_div2Big, ← testBit_val, Nat.testBit_add_one]

theorem bitOf_mul2Big_succ (v : Big) {k : Nat} (hk : k < 2111) : bitOf (mul2Big v) (k + 1) = bitOf v k := by
  have hmask : decide (k + 1 < 2112) = true := decide_eq_true (by omega)
  rw [← testBit_val, val_mul2Big, Nat.testBit_mod_two_pow, hmask, Bool.true_and, Nat.testBit_add_one,
    Nat.mul_div_cancel_left _ Nat.two_pos, testBit_val]

theorem bitOf_mul2Big_zero (v : Big) : bitOf (mul2Big v) 0 = false := by
  rw [← testBit_val, val_mul2Big, Nat.testBit_mod_two_pow, Nat.testBit_zero, Nat.mul_mod_right]
  rfl

/-- Settles O24: the limbs are the loop's, and the bits are those of the halved number; bit 2111 takes the place of a bit
that a value of 2112 bits does not have. -/
theorem div2HalvesTheReceiver : Obligations.Div2HalvesTheReceiver := fun ra s =>
  ⟨div2Big (readReg ra s), update_idleResponse ra _ s, get_div2Big_castSucc _, get_div2Big_last _, val_div2Big _,
    fun k => bitOf_div2Big _ k.val, (bitOf_div2Big _ 2111).trans (bitOf_eq_false_of_le _ le_rfl),
    toNat_encode_formatU 0x3#4 rfl⟩

/-- Settles O25: the limbs are the loop's, and the bits are those of the doubled number. -/
theorem mul2DoublesTheReceiver : Obligations.Mul2DoublesTheReceiver := fun ra s =>
  ⟨mul2Big (readReg ra s), update_idleResponse ra _ s, get_mul2Big_succ _, get_mul2Big_zero _, val_mul2Big _,
    fun k => bitOf_mul2Big_succ _ k.isLt, bitOf_mul2Big_zero _, toNat_encode_formatU 0x4#4 rfl⟩

/-! ### Round trips: the one bit that can be lost, with its weight -/

/-- Doubling and then halving loses bit 2111 and nothing else, `42_shift.md` R59. -/
theorem val_div2Big_mul2Big (v : Big) :
    val (div2Big (mul2Big v)) + 2 ^ 2111 * (bitOf v 2111).toNat = val v := by
  calc val (div2Big (mul2Big v)) + 2 ^ 2111 * (bitOf v 2111).toNat
      = 2 * val v % 2 ^ (2111 + 1) / 2 + 2 ^ 2111 * (bitOf v 2111).toNat := by rw [val_div2Big, val_mul2Big]
    _ = val v % 2 ^ 2111 + 2 ^ 2111 * (bitOf v 2111).toNat := by
        rw [Nat.pow_succ', Nat.mul_mod_mul_left, Nat.mul_div_cancel_left _ Nat.two_pos]
    _ = val v % 2 ^ (2111 + 1) := by rw [← testBit_val, Nat.toNat_testBit, ← Nat.mod_pow_succ]
    _ = val v := Nat.mod_eq_of_lt (val_lt v)

/-- Halving and then doubling loses bit 0 and nothing else, `42_shift.md` R59. -/
theorem val_mul2Big_div2Big (v : Big) : val (mul2Big (div2Big v)) + (bitOf v 0).toNat = val v := by
  have hfits : 2 * (val v / 2) < 2 ^ 2112 := Nat.lt_of_le_of_lt (Nat.mul_div_le (val v) 2) (val_lt v)
  rw [val_mul2Big, val_div2Big, Nat.mod_eq_of_lt hfits, ← testBit_val, Nat.toNat_testBit, Nat.pow_zero, Nat.div_one,
    Nat.div_add_mod]

/-- When one bit `b` of weight `m` is all that `v` has over `w`, either nothing was lost or `m` was. -/
theorem eq_or_val_sub_of_lost_bit {v w : Big} {b : Bit} {m : Nat} (h : val w + m * b.toNat = val v) :
    (b = false → w = v) ∧ (b = true → val w = val v - m) := by
  refine ⟨fun hkept => ?_, fun hlost => ?_⟩
  · rw [hkept, Bool.toNat_false, Nat.mul_zero, Nat.add_zero] at h
    exact val_inj h
  · rw [hlost, Bool.toNat_true, Nat.mul_one] at h
    exact Nat.eq_sub_of_add_eq h

/-- Settles O26: what a round trip leaves and the weight of the bit it can lose make up the old number. -/
theorem shiftRoundTrips : Obligations.ShiftRoundTrips := by
  refine fun ra s t u => ⟨fun hmul hdiv => ?_, fun hdiv hmul => ?_⟩
  · rw [readReg_of_exec_div2 hdiv, readReg_of_exec_mul2 hmul]
    exact eq_or_val_sub_of_lost_bit (val_div2Big_mul2Big _)
  · rw [readReg_of_exec_mul2 hmul, readReg_of_exec_div2 hdiv]
    exact eq_or_val_sub_of_lost_bit (by rw [Nat.one_mul, val_mul2Big_div2Big])

end Sys2Proof.Machine
end

section
/-! The bit-length encoder of `43_bitlength.md`. The leading-zero count of a limb and the scan over the limbs are tied to
the library's `Nat.size`, the bit length of a number; the closed form and the monotonicity of `NBITS` are then facts about
`Nat.size`. -/

namespace Sys2Proof.Machine

/-! ### The bit length of a number -/

theorem size_eq_of_bounds {m n : Nat} (hlo : 2 ^ (n - 1) ≤ m) (hhi : m < 2 ^ n) : Nat.size m = n := by
  have hgt : n - 1 < Nat.size m := Nat.lt_size.mpr hlo
  have hle : Nat.size m ≤ n := Nat.size_le.mpr hhi
  omega

theorem size_eq_size_half_succ {n : Nat} (hn : n ≠ 0) : Nat.size n = Nat.size (n / 2) + 1 := by
  have hbit : Nat.bit (n.testBit 0) (n / 2) = n := Nat.bit_testBit_zero_shiftRight_one n
  calc Nat.size n = Nat.size (Nat.bit (n.testBit 0) (n / 2)) := by rw [hbit]
    _ = Nat.size (n / 2) + 1 := Nat.size_bit (hbit.symm ▸ hn)

/-! ### The leading zeros of a limb -/

theorem clz64_eq_size (w : Word) : clz64 w = 64 - Nat.size w.toNat := by
  by_cases hw : w = 0#64
  · rw [hw, clz64_zero, BitVec.toNat_zero, Nat.size_zero]
  · obtain ⟨hle, hlo, hhi⟩ := clz64_bounds w hw
    rw [size_eq_of_bounds (n := 64 - clz64 w) (by rwa [Nat.sub_right_comm]) hhi]
    omega

theorem size_toNat_of_highest_bit {w : Word} {p : Fin 64} (hp : w.getLsbD p.val = true)
    (habove : ∀ q : Fin 64, p.val < q.val → w.getLsbD q.val = false) : Nat.size w.toNat = p.val + 1 := by
  refine size_eq_of_bounds (Nat.ge_two_pow_of_testBit hp) (Nat.lt_pow_two_of_testBit _ fun q hq => ?_)
  by_cases hq64 : q < 64
  · exact habove ⟨q, hq64⟩ hq
  · exact BitVec.getLsbD_of_ge w q (Nat.le_of_not_lt hq64)

/-- Settles O5: the leading zeros are what the bit length of the limb leaves of 64, and the highest set bit `p` fixes that
length as `p + 1`. -/
theorem leadingZeroCount : Obligations.LeadingZeroCount := by
  refine ⟨clz64_zero, fun w p hp habove => ?_, fun w hw => ?_, by decide, by decide, by decide⟩
  · rw [clz64_eq_size, size_toNat_of_highest_bit hp habove, Nat.add_comm, ← Nat.sub_sub]
  · rw [Nat.sub_right_comm]
    exact clz64_bounds w hw

/-! ### The scan -/

/-- A command that only answers a bit length adds one entry and changes nothing else, `43_bitlength.md` R62. -/
theorem respond_nbResponse (n : Nat) (s : State) :
    respond (nbResponse n) s =
      .next { s with answers := s.answers ++ [.response ⟨false, false, 0#2, BitVec.ofNat 12 n, 0#2112⟩] } := rfl

/-- The limb form as the scan counts it: 64 for each limb above the highest nonzero one, and that limb's own zeros. -/
theorem bitLength_eq_sub_leading_zeros {v : Big} {j : Fin 33} (hj : v.get j ≠ 0#64)
    (habove : ∀ i : Fin 33, j < i → v.get i = 0#64) :
    bitLength v = 2112 - (64 * (32 - j.val) + clz64 (v.get j)) := by
  have hlimb := bitLength_highest v j hj habove
  have hclz := clz64_le (v.get j)
  have hjlt := j.isLt
  omega

/-- Settles O27: the number answered is the scan's, which is 0 without a set bit and otherwise fixed by the limb that stops
it. -/
theorem nbitsScansFromTheTop : Obligations.NbitsScansFromTheTop := fun ra s =>
  ⟨bitLength (readReg ra s), respond_nbResponse _ s, bitLength_le _, bitLength_zero _,
    fun _ hj habove => bitLength_eq_sub_leading_zeros hj habove, toNat_encode_formatU 0x5#4 rfl⟩

/-! ### The closed form -/

theorem bitLength_eq_size (v : Big) : bitLength v = Nat.size (val v) := by
  by_cases hzero : val v = 0
  · rw [(bitLength_eq_zero_iff v).mpr hzero, hzero, Nat.size_zero]
  · obtain ⟨-, -, hlo, hhi⟩ := bitLength_bounds v hzero
    exact (size_eq_of_bounds hlo hhi).symm

theorem responseTo_nbits (ra : Reg) (s : State) :
    responseTo (.nbits ra) s = some (nbResponse (bitLength (readReg ra s))) :=
  responseTo_of_respond rfl

/-- Settles O28: the bounds hold of the scan's number (`bitLength_bounds`), and only the bit length of the number meets
them. -/
theorem nbitsClosedForm : Obligations.NbitsClosedForm := by
  refine fun ra s => ⟨_, responseTo_nbits ra s, ?_⟩
  rw [toNat_nbResponse_bitLength]
  refine ⟨(bitLength_eq_zero_iff _).mpr, fun hne => ?_, bitLength_highest _⟩
  obtain ⟨hpos, hle, hlo, hhi⟩ := bitLength_bounds _ hne
  refine ⟨hpos, hle, hlo, hhi, fun n _ hnlo hnhi => ?_⟩
  rw [bitLength_eq_size, size_eq_of_bounds hnlo hnhi]

/-! ### Monotonicity and the shifts -/

theorem bitLength_le_bitLength {v w : Big} (h : val v ≤ val w) : bitLength v ≤ bitLength w := by
  rw [bitLength_eq_size, bitLength_eq_size]
  exact Nat.size_le_size h

theorem bitLength_eq_bitLength_div2Big_succ {v : Big} (hv : val v ≠ 0) : bitLength v = bitLength (div2Big v) + 1 := by
  rw [bitLength_eq_size, bitLength_eq_size, val_div2Big, size_eq_size_half_succ hv]

/-- With bit 2111 clear, halving takes the doubled value back to the old one, so the lengths differ as in `DIV2`. -/
theorem bitLength_mul2Big {v : Big} (htop : bitOf v 2111 = false) (hv : val v ≠ 0) :
    bitLength (mul2Big v) = bitLength v + 1 := by
  have hback : div2Big (mul2Big v) = v := (eq_or_val_sub_of_lost_bit (val_div2Big_mul2Big v)).1 htop
  have hdouble : val (mul2Big v) ≠ 0 := fun hzero => hv (by rw [← hback, val_div2Big, hzero])
  rw [bitLength_eq_bitLength_div2Big_succ hdouble, hback]

/-- Settles O29: `NB` is the bit length of the number, which is monotone and grows by one with each factor of 2. -/
theorem nbitsIsMonotone : Obligations.NbitsIsMonotone := by
  refine ⟨fun ra rb s hle => ⟨_, _, responseTo_nbits ra s, responseTo_nbits rb s, ?_⟩,
    fun ra s => ⟨_, _, responseTo_nbits ra s, responseTo_of_respond rfl, (zeroBit_iff_nb_zero _).symm⟩,
    fun ra s t hmul htop hne => ⟨_, _, responseTo_nbits ra s, responseTo_nbits ra t, ?_⟩,
    fun ra s t hdiv hne => ⟨_, _, responseTo_nbits ra s, responseTo_nbits ra t, ?_⟩⟩
  all_goals rw [toNat_nbResponse_bitLength, toNat_nbResponse_bitLength]
  · exact bitLength_le_bitLength hle
  · rw [readReg_of_exec_mul2 hmul]
    exact bitLength_mul2Big htop hne
  · rw [readReg_of_exec_div2 hdiv]
    exact bitLength_eq_bitLength_div2Big_succ hne

end Sys2Proof.Machine
end

section
/-! The adder and the subtractor of `44_addsub.md`. The law of each chain (`val_chainBig_adc64`, `val_chainBig_sbb64`) has one
solution in a value and a bit, so a command leaves and answers whatever value and bit meet it; the properties of R70 and
R71 are solutions of the two laws. -/

namespace Sys2Proof

/-- The byte of a format-B command, `30_encoding.md` R39. -/
theorem toNat_encode_formatB {i : Instr} {ra rb : Reg} (op : BitVec 4)
    (h : encodeFields i = ⟨op, fieldOfReg ra, fieldOfReg rb⟩) :
    (encode i).toNat = 16 * op.toNat + 4 * ra.val + rb.val := by
  rw [encode, h, toNat_joinFields, toNat_fieldOfReg, toNat_fieldOfReg]

end Sys2Proof

namespace Sys2Proof.Machine

/-! ### A command that writes its receiver and answers a flag -/

theorem update_flagResponse (ra : Reg) (v : Big) (f : Bit) (s : State) :
    update ra v (flagResponse f) s = .next { s with
      regs := s.regs.set ra.val v ra.isLt
      answers := s.answers ++ [.response ⟨false, f, 0#2, 0#12, 0#2112⟩] } := rfl

theorem update_readReg (ra : Reg) (r : Response) (s : State) : update ra (readReg ra s) r s = respond r s := by
  rw [update, writeReg_readReg, respond]

theorem responseTo_of_update {i : Instr} {ra : Reg} {v : Big} {r : Response} {s : State} (h : exec i s = update ra v r s) :
    responseTo i s = some r :=
  responseTo_of_answer h

/-! ### The chain of cells -/

/-- The carry or borrow into limb `k` of the chain over two values; `k = 33` is the one out of limb 32. -/
def carryAt (cell : Word → Word → Bit → Word × Bit) (a b : Big) (k : Fin 34) : Bit :=
  carryInto cell a.toList b.toList false k.val

theorem carryAt_zero (cell : Word → Word → Bit → Word × Bit) (a b : Big) : carryAt cell a b 0 = false :=
  carryInto_zero cell a.toList b.toList false

theorem cell_carryAt (cell : Word → Word → Bit → Word × Bit) (a b : Big) (i : Fin 33) :
    cell (a.get i) (b.get i) (carryAt cell a b i.castSucc) = ((chainBig cell a b).get i, carryAt cell a b i.succ) := by
  rw [get_eq_toList, get_eq_toList, get_eq_toList]
  exact chain_cell cell a.toList b.toList false i.val (by simp) (by simp)

theorem chainOut_eq_carryAt (cell : Word → Word → Bit → Word × Bit) (a b : Big) :
    chainOut cell a b = carryAt cell a b 33 := by
  rw [chainOut, chain_out cell a.toList b.toList false (by simp), Vector.length_toList]
  rfl

/-- Settles O30: the chain runs `adc64` at each limb (`cell_carryAt`). -/
theorem addThreadsTheCarry : Obligations.AddThreadsTheCarry := fun ra rb s =>
  ⟨chainBig adc64 (readReg ra s) (readReg rb s), carryAt adc64 (readReg ra s) (readReg rb s),
    carryAt_zero adc64 _ _, cell_carryAt adc64 _ _, chainOut_eq_carryAt adc64 _ _ ▸ update_flagResponse ra _ _ s,
    toNat_encode_formatB 0x6#4 rfl⟩

/-- Settles O31: the chain runs `sbb64` at each limb, the receiver's limb as the minuend. -/
theorem subThreadsTheBorrow : Obligations.SubThreadsTheBorrow := fun ra rb s =>
  ⟨chainBig sbb64 (readReg ra s) (readReg rb s), carryAt sbb64 (readReg ra s) (readReg rb s),
    carryAt_zero sbb64 _ _, cell_carryAt sbb64 _ _, chainOut_eq_carryAt sbb64 _ _ ▸ update_flagResponse ra _ _ s,
    toNat_encode_formatB 0x7#4 rfl⟩

/-! ### What the two laws say of a value and a bit -/

theorem mod_div_of_add_law {v : Big} {f : Bit} {x : Nat} (h : val v + 2 ^ 2112 * f.toNat = x) :
    val v = x % 2 ^ 2112 ∧ f.toNat = x / 2 ^ 2112 := by
  obtain ⟨hdiv, hmod⟩ := (Nat.div_mod_unique (Nat.two_pow_pos 2112)).mpr ⟨h, val_lt v⟩
  exact ⟨hmod.symm, hdiv.symm⟩

theorem intCast_val_lt (v : Big) : (val v : Int) < 2 ^ 2112 := mod_cast val_lt v

theorem mod_div_of_sub_law {v : Big} {f : Bit} {x : Int} (h : (val v : Int) - 2 ^ 2112 * f.toNat = x) :
    (val v : Int) = x % 2 ^ 2112 ∧ -(f.toNat : Int) = x / 2 ^ 2112 := by
  have hlaw : (val v : Int) + 2 ^ 2112 * -(f.toNat : Int) = x := by rw [mul_neg, ← sub_eq_add_neg, h]
  obtain ⟨hdiv, hmod⟩ := (Int.ediv_emod_unique (by positivity)).mpr ⟨hlaw, Int.natCast_nonneg _, intCast_val_lt v⟩
  exact ⟨hmod.symm, hdiv.symm⟩

theorem carry_iff_of_add_law {v m x : Nat} {f : Bit} (hv : v < m) (h : v + m * f.toNat = x) : f = true ↔ m ≤ x := by
  cases f with
  | false =>
    rw [Bool.toNat_false, Nat.mul_zero] at h
    exact iff_of_false Bool.false_ne_true (by omega)
  | true =>
    rw [Bool.toNat_true, Nat.mul_one] at h
    exact iff_of_true rfl (by omega)

theorem borrow_iff_of_sub_law {v a b : Nat} {m : Int} {f : Bit} (hv : v < m)
    (h : (v : Int) - m * f.toNat = (a : Int) - b) : f = true ↔ a < b := by
  cases f with
  | false =>
    rw [Bool.toNat_false, Int.natCast_zero, Int.mul_zero] at h
    exact iff_of_false Bool.false_ne_true (by omega)
  | true =>
    rw [Bool.toNat_true, Int.natCast_one, Int.mul_one] at h
    exact iff_of_true rfl (by omega)

theorem chainOut_adc64_iff (a b : Big) : chainOut adc64 a b = true ↔ 2 ^ 2112 ≤ val a + val b :=
  carry_iff_of_add_law (val_lt _) (val_chainBig_adc64 a b)

theorem chainOut_sbb64_iff (a b : Big) : chainOut sbb64 a b = true ↔ val a < val b :=
  borrow_iff_of_sub_law (intCast_val_lt _) (val_chainBig_sbb64 a b)

/-- Settles O32: the chain meets the law of addition, whose bit and value are quotient and remainder by `2^2112`. -/
theorem addClosedForm : Obligations.AddClosedForm := fun ra rb s => by
  have hlaw := val_chainBig_adc64 (readReg ra s) (readReg rb s)
  obtain ⟨hmod, hdiv⟩ := mod_div_of_add_law hlaw
  exact ⟨_, _, update_flagResponse ra _ _ s, hmod, hdiv, chainOut_adc64_iff _ _, hlaw.symm⟩

/-- Settles O33: the chain meets the law of subtraction, which borrows exactly for a negative difference. -/
theorem subClosedForm : Obligations.SubClosedForm := fun ra rb s => by
  have hlaw := val_chainBig_sbb64 (readReg ra s) (readReg rb s)
  obtain ⟨hmod, -⟩ := mod_div_of_sub_law hlaw
  exact ⟨_, _, update_flagResponse ra _ _ s, hmod, chainOut_sbb64_iff _ _, hlaw.symm⟩

/-! ### The laws have one solution -/

theorem chain_adc64_eq_of_law {a b v : Big} {f : Bit} (h : val v + 2 ^ 2112 * f.toNat = val a + val b) :
    chainBig adc64 a b = v ∧ chainOut adc64 a b = f := by
  obtain ⟨hmod, hdiv⟩ := mod_div_of_add_law h
  obtain ⟨hmod', hdiv'⟩ := mod_div_of_add_law (val_chainBig_adc64 a b)
  exact ⟨val_inj (hmod'.trans hmod.symm), bit_eq_of_toNat_eq (hdiv'.trans hdiv.symm)⟩

theorem chain_sbb64_eq_of_law {a b v : Big} {f : Bit}
    (h : (val v : Int) - 2 ^ 2112 * f.toNat = (val a : Int) - val b) :
    chainBig sbb64 a b = v ∧ chainOut sbb64 a b = f := by
  obtain ⟨hmod, hdiv⟩ := mod_div_of_sub_law h
  obtain ⟨hmod', hdiv'⟩ := mod_div_of_sub_law (val_chainBig_sbb64 a b)
  exact ⟨val_inj (Int.ofNat_inj.mp (hmod'.trans hmod.symm)),
    bit_eq_of_toNat_eq (Int.ofNat_inj.mp (neg_inj.mp (hdiv'.trans hdiv.symm)))⟩

theorem exec_add_of_law {ra rb : Reg} {s : State} {v : Big} {f : Bit}
    (h : val v + 2 ^ 2112 * f.toNat = val (readReg ra s) + val (readReg rb s)) :
    exec (.add ra rb) s = update ra v (flagResponse f) s := by
  obtain ⟨rfl, rfl⟩ := chain_adc64_eq_of_law h
  rfl

theorem exec_sub_of_law {ra rb : Reg} {s : State} {v : Big} {f : Bit}
    (h : (val v : Int) - 2 ^ 2112 * f.toNat = (val (readReg ra s) : Int) - val (readReg rb s)) :
    exec (.sub ra rb) s = update ra v (flagResponse f) s := by
  obtain ⟨rfl, rfl⟩ := chain_sbb64_eq_of_law h
  rfl

/-! ### The same value as both operands -/

/-- Doubling drops bit 2111 and keeps the rest, `42_shift.md` R58. -/
theorem val_mul2Big_add_top (v : Big) : val (mul2Big v) + 2 ^ 2112 * (bitOf v 2111).toNat = val v + val v := by
  calc val (mul2Big v) + 2 ^ 2112 * (bitOf v 2111).toNat
      = 2 * val v % 2 ^ (2111 + 1) + 2 ^ (2111 + 1) * (bitOf v 2111).toNat := by rw [val_mul2Big]
    _ = 2 * (val v % 2 ^ 2111 + 2 ^ 2111 * (bitOf v 2111).toNat) := by
        rw [Nat.pow_succ', Nat.mul_mod_mul_left, Nat.mul_add, Nat.mul_assoc]
    _ = 2 * (val v % 2 ^ (2111 + 1)) := by rw [← testBit_val, Nat.toNat_testBit, ← Nat.mod_pow_succ]
    _ = val v + val v := by rw [Nat.mod_eq_of_lt (val_lt v), Nat.two_mul]

theorem exec_add_self (ra : Reg) (s : State) :
    exec (.add ra ra) s = update ra (mul2Big (readReg ra s)) (flagResponse (bitOf (readReg ra s) 2111)) s :=
  exec_add_of_law (val_mul2Big_add_top _)

theorem exec_sub_of_eq {ra rb : Reg} {s : State} (h : readReg ra s = readReg rb s) :
    exec (.sub ra rb) s = update ra (big 0) (flagResponse false) s :=
  exec_sub_of_law (by rw [h, val_big 0 (Nat.two_pow_pos 2112), sub_self, Bool.toNat_false, Int.natCast_zero, mul_zero,
    sub_zero])

theorem compareBig_self (v : Big) : compareBig v v = .equal := by
  rw [compareBig_spec, if_neg (lt_irrefl _), if_neg (lt_irrefl _)]

theorem equalBit_self (v : Big) : equalBit v v = true := by
  rw [equalBit_spec, decide_eq_true rfl]

theorem exec_cmp_self (ra : Reg) (s : State) : exec (.cmp ra ra) s = respond (ordResponse .equal) s :=
  congrArg (fun o => respond (ordResponse o) s) (compareBig_self _)

theorem exec_eq_self (ra : Reg) (s : State) : exec (.eq ra ra) s = respond (flagResponse true) s :=
  congrArg (fun b => respond (flagResponse b) s) (equalBit_self _)

/-- Settles O34: the doubled value and the old bit 2111 meet the law of addition, 0 and no borrow that of subtraction. -/
theorem sameRegisterTwice : Obligations.SameRegisterTwice := fun ra s =>
  ⟨mul2Big (readReg ra s), exec_add_self ra s, update_idleResponse ra _ s, val_mul2Big _, exec_sub_of_eq rfl,
    exec_cmp_self ra s, exec_eq_self ra s⟩

/-! ### Zero, exchange, undo -/

theorem exec_add_of_zero {ra rb : Reg} {s : State} (h : val (readReg rb s) = 0) :
    exec (.add ra rb) s = respond (flagResponse false) s := by
  rw [← update_readReg]
  exact exec_add_of_law (by rw [h, Bool.toNat_false, Nat.mul_zero])

theorem exec_sub_of_zero {ra rb : Reg} {s : State} (h : val (readReg rb s) = 0) :
    exec (.sub ra rb) s = respond (flagResponse false) s := by
  rw [← update_readReg]
  exact exec_sub_of_law (by rw [h, Bool.toNat_false, Int.natCast_zero, mul_zero])

/-- The sum of the exchanged operands is the same sum, `44_addsub.md` R71 (d). -/
theorem exec_add_exchanged (ra rb : Reg) (s : State) :
    exec (.add rb ra) s = update rb (chainBig adc64 (readReg ra s) (readReg rb s))
      (flagResponse (chainOut adc64 (readReg ra s) (readReg rb s))) s :=
  exec_add_of_law ((val_chainBig_adc64 _ _).trans (Nat.add_comm _ _))

/-- After `ADD` the law of addition is the law of the subtraction that undoes it, with the carry as the borrow. The summand
must still be there, so the two registers differ. -/
theorem exec_sub_after_add {ra rb : Reg} {s t : State} (hne : ra ≠ rb) (h : exec (.add ra rb) s = .next t) :
    exec (.sub ra rb) t =
      update ra (readReg ra s) (flagResponse (chainOut adc64 (readReg ra s) (readReg rb s))) t := by
  have hra : readReg ra t = chainBig adc64 (readReg ra s) (readReg rb s) := readReg_of_update h
  have hrb : readReg rb t = readReg rb s := by
    rw [update_next h, readReg_answer, readReg_writeReg_ne hne.symm]
  have hlaw : (val (readReg ra t) : Int) + 2 ^ 2112 * (chainOut adc64 (readReg ra s) (readReg rb s)).toNat =
      val (readReg ra s) + val (readReg rb t) := by
    rw [hra, hrb]
    exact_mod_cast val_chainBig_adc64 (readReg ra s) (readReg rb s)
  exact exec_sub_of_law (by linarith)

/-- `SUB` undoes `ADD` of the same other register, `44_addsub.md` R71 (e). -/
theorem sub_undoes_add {ra rb : Reg} (hne : ra ≠ rb) (s : State) :
    ∃ t u : State, exec (.add ra rb) s = .next t ∧ exec (.sub ra rb) t = .next u ∧ readReg ra u = readReg ra s ∧
      responseTo (.sub ra rb) t = responseTo (.add ra rb) s := by
  obtain ⟨t, hadd⟩ : ∃ t, exec (.add ra rb) s = .next t := ⟨_, rfl⟩
  have hsub := exec_sub_after_add hne hadd
  exact ⟨t, _, hadd, hsub, readReg_writeReg_same ra _ t,
    (responseTo_of_update hsub).trans (responseTo_of_update rfl).symm⟩

/-- Two residues whose sum is a multiple of the modulus are negatives of each other. -/
theorem eq_neg_mod_of_add_eq_mul {v w m k : Nat} (hv : v < m) (hw : w < m) (h : v + w = m * k) : w = (m - v) % m := by
  have hshift : m + w = m - v + (v + w) := by omega
  calc w = (m + w) % m := by rw [Nat.add_mod_left, Nat.mod_eq_of_lt hw]
    _ = (m - v) % m := by rw [hshift, h, Nat.add_mul_mod_self_left]

/-- The two laws of exchanged operands add up to a multiple of `2^2112`, `44_addsub.md` R71 (f). -/
theorem val_chainBig_sbb64_exchanged (a b : Big) :
    val (chainBig sbb64 b a) = (2 ^ 2112 - val (chainBig sbb64 a b)) % 2 ^ 2112 := by
  have hab := val_chainBig_sbb64 a b
  have hba := val_chainBig_sbb64 b a
  have hsum : (val (chainBig sbb64 a b) : Int) + val (chainBig sbb64 b a) =
      2 ^ 2112 * ((chainOut sbb64 a b).toNat + (chainOut sbb64 b a).toNat) := by linarith
  exact eq_neg_mod_of_add_eq_mul (val_lt _) (val_lt _) (mod_cast hsum)

theorem chainOut_sbb64_exchanged {a b : Big} (h : a ≠ b) : chainOut sbb64 b a = !chainOut sbb64 a b := by
  have hval : val a ≠ val b := fun heq => h (val_inj heq)
  rw [Bool.eq_iff_iff, Bool.not_eq_true', ← Bool.not_eq_true, chainOut_sbb64_iff, chainOut_sbb64_iff]
  omega

/-- Settles O35: each clause is a solution of the law of its command. -/
theorem addSubProperties : Obligations.AddSubProperties := fun ra rb s =>
  ⟨fun hzero => ⟨exec_add_of_zero hzero, exec_sub_of_zero hzero⟩, fun heq => exec_sub_of_eq heq,
    ⟨_, _, update_flagResponse ra _ _ s, exec_add_exchanged ra rb s⟩, fun hne => sub_undoes_add hne s,
    ⟨_, _, _, _, update_flagResponse ra _ _ s, update_flagResponse rb _ _ s, val_chainBig_sbb64_exchanged _ _,
      chainOut_sbb64_exchanged⟩⟩

end Sys2Proof.Machine
end

section
/-! The comparator of `45_compare.md`. The scan combines the 33 limb answers by `decideBy` (`compareScan_cons`), which gives
the highest difference of R73 and the bracketings of R76; its closed form on the numbers (`compareBig_spec`) gives R75 and
R77. -/

namespace Sys2Proof.Machine

/-! ### The answers as codes -/

theorem ordOfCode_ordCode (o : Comparison) : ordOfCode (ordCode o) = some o := by
  cases o <;> rfl

theorem ordCode_injective : Function.Injective ordCode := fun o p h =>
  Option.some.inj (by rw [← ordOfCode_ordCode o, h, ordOfCode_ordCode])

/-- `10` is no code, `45_compare.md` R73. -/
theorem ordCode_ne_10 (o : Comparison) : ordCode o ≠ 0b10#2 := by
  cases o <;> decide

/-- A command that only answers a comparison adds one entry and changes nothing else, `45_compare.md` R73. -/
theorem respond_ordResponse (o : Comparison) (s : State) :
    respond (ordResponse o) s =
      .next { s with answers := s.answers ++ [.response ⟨false, false, ordCode o, 0#12, 0#2112⟩] } := rfl

/-! ### The operator and the limb answers -/

@[simp] theorem decideBy_equal_left (lo : Comparison) : decideBy .equal lo = lo := rfl

@[simp] theorem decideBy_equal_right (hi : Comparison) : decideBy hi .equal = hi := by
  cases hi <;> rfl

theorem decideBy_assoc (a b c : Comparison) : decideBy (decideBy a b) c = decideBy a (decideBy b c) := by
  cases a <;> rfl

theorem decideBy_of_ne_equal {hi : Comparison} (h : hi ≠ .equal) (lo : Comparison) : decideBy hi lo = hi := by
  cases hi with
  | equal => exact absurd rfl h
  | less => rfl
  | greater => rfl

theorem cmp64_of_lt {x y : Word} (h : x.toNat < y.toNat) : cmp64 x y = .less :=
  if_pos (BitVec.lt_def.mpr h)

theorem cmp64_of_gt {x y : Word} (h : y.toNat < x.toNat) : cmp64 x y = .greater := by
  rw [cmp64, if_neg (fun hlt => Nat.lt_asymm h (BitVec.lt_def.mp hlt)), if_pos (BitVec.lt_def.mpr h)]

theorem cmp64_self (x : Word) : cmp64 x x = .equal := by
  simp [cmp64]

/-! ### The scan, limb by limb -/

theorem compareScan_cons (x y : Word) (xs ys : List Word) :
    compareScan (x :: xs) (y :: ys) = decideBy (cmp64 x y) (compareScan xs ys) := by
  rw [compareScan, cmp64]
  split_ifs <;> rfl

/-- The first limbs that differ decide, `45_compare.md` R73. -/
theorem compareScan_of_first_difference {xs ys : List Word} {k : Nat} {x y : Word} (hx : xs[k]? = some x)
    (hy : ys[k]? = some y) (hbefore : ∀ i, i < k → xs[i]? = ys[i]?) (hne : cmp64 x y ≠ .equal) :
    compareScan xs ys = cmp64 x y := by
  induction xs generalizing ys k with
  | nil => simp at hx
  | cons a as ih => cases ys with
    | nil => simp at hy
    | cons b bs =>
      rw [compareScan_cons]
      cases k with
      | zero =>
        obtain rfl : a = x := by simpa using hx
        obtain rfl : b = y := by simpa using hy
        exact decideBy_of_ne_equal hne _
      | succ k =>
        have hab : a = b := by simpa using hbefore 0 k.succ_pos
        rw [hab, cmp64_self, decideBy_equal_left]
        exact ih (by simpa using hx) (by simpa using hy)
          fun i hi => by simpa using hbefore (i + 1) (Nat.succ_lt_succ hi)

/-- Place `i` of the scan holds limb `32 - i`. -/
theorem getElem?_reverse_toList (v : Big) (i : Fin 33) : v.toList.reverse[i.val]? = some (v.get i.rev) := by
  rw [List.getElem?_reverse (by simp), List.getElem?_eq_getElem (by simp; omega), get_eq_toList]
  simp [Fin.val_rev]

/-- The highest limbs that differ decide, `45_compare.md` R73. -/
theorem compareBig_of_highest_difference {a b : Big} {j : Fin 33} {o : Comparison}
    (habove : ∀ i : Fin 33, j < i → a.get i = b.get i) (hlimb : cmp64 (a.get j) (b.get j) = o) (hne : o ≠ .equal) :
    compareBig a b = o := by
  subst hlimb
  have hplace (v : Big) : v.toList.reverse[j.rev.val]? = some (v.get j) := by
    rw [getElem?_reverse_toList, Fin.rev_rev]
  refine compareScan_of_first_difference (hplace a) (hplace b) (fun i hi => ?_) hne
  obtain ⟨p, rfl⟩ : ∃ p : Fin 33, p.val = i := ⟨⟨i, hi.trans j.rev.isLt⟩, rfl⟩
  rw [getElem?_reverse_toList, getElem?_reverse_toList, habove p.rev (Fin.lt_rev_iff.mpr hi)]

theorem big_ext_iff {a b : Big} : a = b ↔ ∀ i : Fin 33, a.get i = b.get i :=
  ⟨fun h _ => h ▸ rfl, fun h => Vector.ext fun i hi => by simpa [Vector.get_eq_getElem] using h ⟨i, hi⟩⟩

/-- Settles O36: the scan answers what the highest limbs that differ answer, and `Equal` on equal values. -/
theorem cmpDecidesByTheHighestDifference : Obligations.CmpDecidesByTheHighestDifference := fun ra rb s => by
  refine ⟨_, respond_ordResponse _ s, fun hall => ?_, fun j habove => ⟨fun hlt => ?_, fun hgt => ?_⟩, ordCode_ne_10 _,
    toNat_encode_formatB 0x8#4 rfl⟩
  · rw [big_ext_iff.mpr hall, compareBig_self]
    rfl
  · exact congrArg ordCode (compareBig_of_highest_difference habove (cmp64_of_lt hlt) nofun)
  · exact congrArg ordCode (compareBig_of_highest_difference habove (cmp64_of_gt hgt) nofun)

/-- Settles O37: the loop answers whether the values are equal (`equalBit_spec`), which they are limb by limb. -/
theorem eqComparesAllLimbs : Obligations.EqComparesAllLimbs := fun ra rb s =>
  ⟨_, respond_flagResponse _ s, by rw [equalBit_spec, decide_eq_true_iff, big_ext_iff],
    toNat_encode_formatB 0x9#4 rfl⟩

/-! ### Any bracketing -/

theorem compareScan_eq_foldr (xs ys : List Word) :
    compareScan xs ys = (List.zipWith cmp64 xs ys).foldr decideBy .equal := by
  induction xs generalizing ys with
  | nil => rfl
  | cons x xs ih => cases ys with
    | nil => rfl
    | cons y ys => rw [compareScan_cons, ih, List.zipWith_cons_cons, List.foldr_cons]

/-- A tree followed by one more answer combines as its leaves do, from the right. -/
theorem foldr_treeLeaves (tree : CompareTree) (c : Comparison) :
    (treeLeaves tree).foldr decideBy c = decideBy (treeAnswer tree) c := by
  induction tree generalizing c with
  | leaf a => rfl
  | node hi lo ihhi ihlo => rw [treeLeaves, List.foldr_append, ihlo, ihhi, treeAnswer, decideBy_assoc]

theorem treeAnswer_eq_foldr (tree : CompareTree) : treeAnswer tree = (treeLeaves tree).foldr decideBy .equal := by
  rw [foldr_treeLeaves, decideBy_equal_right]

theorem equalScan_eq_all (xs ys : List Word) (e : Bit) :
    equalScan xs ys e = (e && (List.zipWith (fun x y => decide (x = y)) xs ys).all id) := by
  induction xs generalizing ys e with
  | nil => simp [equalScan]
  | cons x xs ih => cases ys with
    | nil => simp [equalScan]
    | cons y ys =>
      rw [equalScan, ih]
      by_cases hxy : x = y <;> simp [hxy]

/-- Settles O39: by associativity a tree answers what combining its leaves from the right answers, as the scan does. -/
theorem comparatorTreeForm : Obligations.ComparatorTreeForm :=
  ⟨decideBy_assoc, fun a => ⟨decideBy_equal_left a, decideBy_equal_right a⟩,
    fun a b tree hleaves => by rw [treeAnswer_eq_foldr, hleaves, compareBig, compareScan_eq_foldr, limbAnswers],
    fun a b => equalScan_eq_all a.toList b.toList true⟩

/-! ### The closed form -/

theorem compareBig_eq_less_iff (a b : Big) : compareBig a b = .less ↔ val a < val b := by
  rw [compareBig_spec]
  split_ifs <;> simp <;> omega

theorem compareBig_eq_equal_iff (a b : Big) : compareBig a b = .equal ↔ val a = val b := by
  rw [compareBig_spec]
  split_ifs <;> simp <;> omega

theorem compareBig_eq_greater_iff (a b : Big) : compareBig a b = .greater ↔ val b < val a := by
  rw [compareBig_spec]
  split_ifs <;> simp <;> omega

theorem ord_less_iff (a b : Big) : ordCode (compareBig a b) = 0b11#2 ↔ val a < val b :=
  (ordCode_injective.eq_iff (b := .less)).trans (compareBig_eq_less_iff a b)

theorem ord_equal_iff (a b : Big) : ordCode (compareBig a b) = 0b00#2 ↔ val a = val b :=
  (ordCode_injective.eq_iff (b := .equal)).trans (compareBig_eq_equal_iff a b)

theorem ord_greater_iff (a b : Big) : ordCode (compareBig a b) = 0b01#2 ↔ val b < val a :=
  (ordCode_injective.eq_iff (b := .greater)).trans (compareBig_eq_greater_iff a b)

theorem equalBit_iff (a b : Big) : equalBit a b = true ↔ val a = val b := by
  rw [equalBit_spec, decide_eq_true_iff]
  exact ⟨congrArg val, val_inj⟩

theorem responseTo_cmp (ra rb : Reg) (s : State) :
    responseTo (.cmp ra rb) s = some (ordResponse (compareBig (readReg ra s) (readReg rb s))) :=
  responseTo_of_respond rfl

theorem responseTo_eq (ra rb : Reg) (s : State) :
    responseTo (.eq ra rb) s = some (flagResponse (equalBit (readReg ra s) (readReg rb s))) :=
  responseTo_of_respond rfl

/-- Settles O38: the comparison is that of the numbers, and equal numbers are equal values. -/
theorem comparatorClosedForm : Obligations.ComparatorClosedForm := by
  refine ⟨fun ra rb s => ⟨_, _, responseTo_cmp ra rb s, responseTo_eq ra rb s, rfl, ord_less_iff _ _, ord_equal_iff _ _,
    ord_greater_iff _ _, equalBit_iff _ _⟩, fun a => ?_, fun a b c => ?_, fun a b hne => ?_, fun a b => ⟨?_, ?_⟩⟩
  · rw [compareBig_self]
    exact nofun
  · simp only [compareBig_eq_less_iff]
    exact Nat.lt_trans
  · simp only [compareBig_eq_less_iff]
    exact Nat.lt_or_gt_of_ne fun hval => hne (val_inj hval)
  · rw [compareBig_eq_less_iff, compareBig_eq_greater_iff]
  · rw [compareBig_eq_equal_iff, compareBig_eq_equal_iff, eq_comm]

/-- Settles O40: each answer has its closed form on the numbers. -/
theorem eqAndCmpAgree : Obligations.EqAndCmpAgree := fun ra rb s =>
  ⟨⟨_, _, responseTo_cmp ra rb s, responseTo_eq ra rb s, (equalBit_iff _ _).trans (ord_equal_iff _ _).symm⟩,
    fun hzero => (responseTo_iszero_eq_responseTo_eq ra hzero).symm,
    ⟨_, _, responseTo_cmp ra rb s, responseTo_of_update rfl, (chainOut_sbb64_iff _ _).trans (ord_less_iff _ _).symm⟩⟩

end Sys2Proof.Machine
end

section
/-! The construction and read paths of `46_construct_read.md`: the whole next state of a construction and of `READ`, the
limbs of the value each construction writes, and the number it stands for. -/

namespace Sys2Proof.Machine

/-! ### The whole next state -/

/-- A command that constructs its register writes it, counts it as constructed and answers nothing,
`46_construct_read.md` R78. -/
theorem construct_eq (ra : Reg) (v : Big) (s : State) :
    construct ra v s = .next { s with
      regs := s.regs.set ra.val v ra.isLt
      constructed := s.constructed.set ra.val true ra.isLt
      answers := s.answers ++ [.response ⟨false, false, 0#2, 0#12, 0#2112⟩] } := rfl

/-- A command that answers a value on `DOUT` adds one entry and changes nothing else, `46_construct_read.md` R82. -/
theorem respond_doutResponse (v : Big) (s : State) :
    respond (doutResponse v) s =
      .next { s with answers := s.answers ++ [.response ⟨false, false, 0#2, 0#12, portOfBig v⟩] } := rfl

/-! ### The headroom limb forced to 0 -/

theorem get_randomBig_castSucc (words : Big) (i : Fin 32) : (randomBig words).get i.castSucc = words.get i.castSucc := by
  have hne : (32 : Nat) ≠ i.val := i.isLt.ne'
  simp [randomBig, Vector.get_eq_getElem, Vector.getElem_set_ne _ _ hne]

theorem get_randomBig_headroom (words : Big) : (randomBig words).get 32 = 0#64 :=
  Vector.getElem_set_self _

theorem bitOf_randomBig (words : Big) (k : Nat) : bitOf (randomBig words) k = (decide (k < 2048) && bitOf words k) := by
  rw [bitOf, bitOf, randomBig, Vector.toList_set, List.getElem?_set]
  obtain hbelow | hhead | habove : k / 64 < 32 ∨ k / 64 = 32 ∨ 33 ≤ k / 64 := by omega
  · have hk : k < 2048 := by omega
    simp [hbelow.ne', hk]
  · have hk : ¬ k < 2048 := by omega
    simp [hhead, hk]
  · have hk : ¬ k < 2048 := by omega
    have hne : 32 ≠ k / 64 := by omega
    simp [hne, habove, hk]

/-- Limb 32 carries the bits from 2048 up, so without it the number is the residue modulo `2^2048`. -/
theorem val_randomBig (words : Big) : val (randomBig words) = val words % 2 ^ 2048 :=
  Nat.eq_of_testBit_eq fun k => by
    rw [testBit_val, bitOf_randomBig, Nat.testBit_mod_two_pow, testBit_val]

theorem val_randomBig_lt (words : Big) : val (randomBig words) < 2 ^ 2048 := by
  rw [val_randomBig]
  exact Nat.mod_lt _ (Nat.two_pow_pos _)

/-- Settles O41: `RND` read as 33 limbs, of which limb 32 is replaced by 0. -/
theorem randKeepsTheHeadroomLimbZero : Obligations.RandKeepsTheHeadroomLimbZero := fun ra s =>
  ⟨randomBig (rndBig s), construct_eq ra _ _,
    fun i => (get_randomBig_castSucc _ i).trans (get_bigOfPort _ i.castSucc), get_randomBig_headroom _,
    val_randomBig_lt _, (val_randomBig _).trans (congrArg (· % 2 ^ 2048) (val_bigOfPort _)),
    toNat_encode_formatU 0xA#4 rfl⟩

/-! ### The whole of `DIN` -/

/-- Settles O42: `DIN` read as 33 limbs stands for the number on the port. -/
theorem loadTakesTheWholeOfDin : Obligations.LoadTakesTheWholeOfDin := fun ra s =>
  ⟨dinBig s, construct_eq ra _ s, get_bigOfPort _, val_bigOfPort _, toNat_encode_formatU 0xB#4 rfl⟩

/-! ### One word, zero extended -/

theorem get_bigOfWord_zero (w : Word) : (bigOfWord w).get 0 = w := rfl

theorem get_bigOfWord_succ (w : Word) (i : Fin 32) : (bigOfWord w).get i.succ = 0#64 := by
  rw [get_eq_toList]
  exact List.getElem_replicate _

theorem toNat_dinWord (s : State) : (dinWord s).toNat = s.ports.din.toNat % 2 ^ 64 :=
  BitVec.extractLsb'_toNat 0 64 _

/-- Settles O43: the low word of `DIN` below 32 limbs of 0 stands for the number of that word. -/
theorem widenZeroExtendsOneWord : Obligations.WidenZeroExtendsOneWord := fun ra s =>
  ⟨bigOfWord (dinWord s), construct_eq ra _ s, get_bigOfWord_zero _, get_bigOfWord_succ _,
    (val_bigOfWord _).trans (toNat_dinWord s), toNat_encode_formatU 0xC#4 rfl⟩

/-! ### The register on `DOUT` -/

/-- Settles O44: the register packed on `DOUT` has its limbs and its number. -/
theorem readDrivesTheRegister : Obligations.ReadDrivesTheRegister := fun ra s =>
  ⟨portOfBig (readReg ra s), respond_doutResponse _ s, portLimb_portOfBig _, toNat_portOfBig _,
    toNat_encode_formatU 0xD#4 rfl⟩

end Sys2Proof.Machine
end

section
/-! The one exception of MWA, `60_exceptions.md` R90: the bytes the decoder rejects, the step it takes for one of them, and
the `ILL` bit of every response. -/

namespace Sys2Proof

/-! ### The illegal bytes -/

theorem wellFormed_splitFields (c : Command) :
    (splitFields c).wellFormed = true ↔
      c.toNat / 16 < 14 ∧ ((6 ≤ c.toNat / 16 ∧ c.toNat / 16 ≤ 9) ∨ c.toNat % 4 = 0) := by
  rw [← opDefined_splitFields, ← formatB_splitFields, ← splitFields_rb_eq_zero]
  simp [CommandFields.wellFormed, CommandFields.rbAllowed]

theorem decode_error_iff (c : Command) :
    (∃ e, decode c = .error e) ↔ ¬ (splitFields c).wellFormed = true := by
  refine ⟨fun ⟨e, herr⟩ hwf => ?_, fun hwf => ?_⟩
  · obtain ⟨i, hok, -⟩ := decode_wellFormed hwf
    simp [herr] at hok
  · rcases hop : (splitFields c).opDefined with - | -
    · exact ⟨_, decode_reservedOpcode hop⟩
    · obtain ⟨hfmt, hrb⟩ : (splitFields c).formatB = false ∧ (splitFields c).rb ≠ 0#2 := by
        simpa [CommandFields.wellFormed, CommandFields.rbAllowed, hop] using hwf
      exact ⟨_, decode_reservedRb hop hfmt hrb⟩

end Sys2Proof

namespace Sys2Proof.Machine

/-! ### The step of an illegal byte -/

/-- A presented transaction leaves the host's list, and its command is performed on its own ports, `20_memory.md` R31. -/
theorem step_of_command {s : State} {t : Transaction} {rest : List HostMove} (h : s.pending = .command t :: rest) :
    step s = performPorts { s with pending := rest, ports := t } := by
  simp [step, nextMove, h, performMove]

theorem performPorts_of_error {s : State} {e : DecodeError} (h : decode s.ports.cmd = .error e) :
    performPorts s = takeIllegalCommand s := by
  simp [performPorts, h]

/-- An illegal command adds one entry and changes nothing else. -/
theorem takeIllegalCommand_eq (s : State) :
    takeIllegalCommand s =
      .next { s with answers := s.answers ++ [.response ⟨true, false, 0#2, 0#12, 0#2112⟩] } := rfl

/-! ### The response of a legal command -/

/-- A command answers the idle response with at most one field filled in, and that field is never `ILL`. -/
theorem exists_responseTo_ill_false (i : Instr) (s : State) : ∃ r, responseTo i s = some r ∧ r.ill = false := by
  cases i <;> exact ⟨_, responseTo_of_answer rfl, rfl⟩

/-- Settles O16: the decoder rejects exactly the bytes whose fields are not well formed, and the step for such a byte is
`takeIllegalCommand` on the presented ports. -/
theorem illegalCommandIsAnsweredInBand : Obligations.IllegalCommandIsAnsweredInBand := by
  refine ⟨fun c => ?_, fun s t rest e hpending herr => ?_, by decide, exists_responseTo_ill_false⟩
  · rw [decode_error_iff, wellFormed_splitFields]
    omega
  · rw [step_of_command hpending, performPorts_of_error herr, takeIllegalCommand_eq]

end Sys2Proof.Machine
end

section
/-! One rule for every command: the state after it has its receiver's new value, its mark, its count of words and its
response, each where the tables of `10_state.md` R12, R19 and `20_memory.md` R28 say; and the value and the response depend
on the command's own inputs alone. -/

namespace Sys2Proof.Machine

/-! ### The responses of the commands are legal -/

theorem legalResponse_idleResponse : legalResponse idleResponse = true := by
  simp [legalResponse, fieldsDriven, idleResponse]

theorem legalResponse_illegalResponse : legalResponse illegalResponse = true := by
  simp [legalResponse, fieldsDriven, illegalResponse, idleResponse]

theorem legalResponse_flagResponse (b : Bit) : legalResponse (flagResponse b) = true := by
  simp [legalResponse, fieldsDriven, flagResponse, idleResponse, Bool.toNat_le]

theorem legalResponse_ordResponse (o : Comparison) : legalResponse (ordResponse o) = true := by
  simp [legalResponse, fieldsDriven, ordResponse, idleResponse, ordCode_ne_10, Bool.toNat_le]

/-- A bit length is at most 2112 (`43_bitlength.md` R62), so `NB` is. -/
theorem legalResponse_nbResponse (v : Big) : legalResponse (nbResponse (bitLength v)) = true := by
  have hnb : (nbResponse (bitLength v)).nb.toNat ≤ 2112 := (toNat_nbResponse_bitLength v).trans_le (bitLength_le v)
  have hone : fieldsDriven (nbResponse (bitLength v)) ≤ 1 := by
    simp [fieldsDriven, nbResponse, idleResponse, Bool.toNat_le]
  have hord : (nbResponse (bitLength v)).ord ≠ 0b10#2 := by
    simp [nbResponse, idleResponse]
  simp [legalResponse, hnb, hone, hord]

theorem legalResponse_doutResponse (v : Big) : legalResponse (doutResponse v) = true := by
  simp [legalResponse, fieldsDriven, doutResponse, idleResponse, Bool.toNat_le]

/-! ### The inputs of a command -/

/-- The two states agree on what `i` takes in: the registers it reads and its operand on a data port. -/
structure SameInputs (i : Instr) (s t : State) : Prop where
  regs : ∀ r ∈ reads i, readReg r s = readReg r t
  load : ∀ r, i = .load r → dinBig s = dinBig t
  widen : ∀ r, i = .widen r → dinWord s = dinWord t
  rand : ∀ r, i = .rand r → rndBig s = rndBig t

theorem SameInputs.first {i : Instr} {s t : State} {ra : Reg} {rs : List Reg} (h : SameInputs i s t)
    (hreads : reads i = ra :: rs) : readReg ra s = readReg ra t :=
  h.regs ra (by simp [hreads])

theorem SameInputs.second {i : Instr} {s t : State} {ra rb : Reg} {rs : List Reg} (h : SameInputs i s t)
    (hreads : reads i = ra :: rb :: rs) : readReg rb s = readReg rb t :=
  h.regs rb (by simp [hreads])

theorem SameInputs.refl (i : Instr) (s : State) : SameInputs i s s :=
  ⟨fun _ _ => rfl, fun _ _ => rfl, fun _ _ => rfl, fun _ _ => rfl⟩

theorem sameInputs_of_ports {i : Instr} {s t : State} (hregs : ∀ r ∈ reads i, readReg r s = readReg r t)
    (hdin : s.ports.din = t.ports.din) (hrnd : s.ports.rnd = t.ports.rnd) : SameInputs i s t :=
  ⟨hregs, fun _ _ => congrArg bigOfPort hdin, fun _ _ => congrArg (·.extractLsb' 0 64) hdin,
    fun _ _ => congrArg bigOfPort hrnd⟩

/-! ### The state after a command -/

/-- The state that `i` leaves when it writes `v` and answers `a`. -/
def afterCommand (i : Instr) (v : Big) (a : Response) (s : State) : State :=
  { s with
    regs := (writes i).elim s.regs fun ra => s.regs.set ra.val v ra.isLt
    constructed := (constructs i).elim s.constructed fun ra => s.constructed.set ra.val true ra.isLt
    rndTaken := s.rndTaken + randomWordsTaken i
    answers := s.answers ++ [.response a] }

/-- Every command completes, with a legal response; from two states that agree on its inputs it writes the same value and
answers the same response. -/
theorem exec_of_sameInputs {i : Instr} {s t : State} (h : SameInputs i s t) :
    ∃ v a, legalResponse a = true ∧ exec i s = .next (afterCommand i v a s) ∧ exec i t = .next (afterCommand i v a t) := by
  cases i with
  | isodd ra => exact ⟨readReg ra s, _, legalResponse_flagResponse _, rfl, by rw [h.first rfl]; rfl⟩
  | iseven ra => exact ⟨readReg ra s, _, legalResponse_flagResponse _, rfl, by rw [h.first rfl]; rfl⟩
  | iszero ra => exact ⟨readReg ra s, _, legalResponse_flagResponse _, rfl, by rw [h.first rfl]; rfl⟩
  | div2 ra => exact ⟨_, _, legalResponse_idleResponse, rfl, by rw [h.first rfl]; rfl⟩
  | mul2 ra => exact ⟨_, _, legalResponse_idleResponse, rfl, by rw [h.first rfl]; rfl⟩
  | nbits ra => exact ⟨readReg ra s, _, legalResponse_nbResponse _, rfl, by rw [h.first rfl]; rfl⟩
  | add ra rb => exact ⟨_, _, legalResponse_flagResponse _, rfl, by rw [h.first rfl, h.second rfl]; rfl⟩
  | sub ra rb => exact ⟨_, _, legalResponse_flagResponse _, rfl, by rw [h.first rfl, h.second rfl]; rfl⟩
  | cmp ra rb => exact ⟨readReg ra s, _, legalResponse_ordResponse _, rfl, by rw [h.first rfl, h.second rfl]; rfl⟩
  | eq ra rb => exact ⟨readReg ra s, _, legalResponse_flagResponse _, rfl, by rw [h.first rfl, h.second rfl]; rfl⟩
  | rand ra => exact ⟨_, _, legalResponse_idleResponse, rfl, by rw [h.rand ra rfl]; rfl⟩
  | load ra => exact ⟨_, _, legalResponse_idleResponse, rfl, by rw [h.load ra rfl]; rfl⟩
  | widen ra => exact ⟨_, _, legalResponse_idleResponse, rfl, by rw [h.widen ra rfl]; rfl⟩
  | read ra => exact ⟨readReg ra s, _, legalResponse_doutResponse _, rfl, by rw [h.first rfl]; rfl⟩

theorem exec_eq_afterCommand (i : Instr) (s : State) :
    ∃ v a, legalResponse a = true ∧ exec i s = .next (afterCommand i v a s) := by
  obtain ⟨v, a, hlegal, hnext, -⟩ := exec_of_sameInputs (.refl i s)
  exact ⟨v, a, hlegal, hnext⟩

theorem exec_next {i : Instr} {s t : State} (h : exec i s = .next t) :
    ∃ v a, legalResponse a = true ∧ t = afterCommand i v a s := by
  obtain ⟨v, a, hlegal, hnext⟩ := exec_eq_afterCommand i s
  exact ⟨v, a, hlegal, Host.Outcome.next.inj (h.symm.trans hnext)⟩

/-! ### What a command leaves in each part of the state -/

section
variable (i : Instr) (v : Big) (a : Response) (s : State)

@[simp] theorem afterCommand_ports : (afterCommand i v a s).ports = s.ports := rfl
@[simp] theorem afterCommand_pending : (afterCommand i v a s).pending = s.pending := rfl
@[simp] theorem afterCommand_answers : (afterCommand i v a s).answers = s.answers ++ [.response a] := rfl
@[simp] theorem afterCommand_rndTaken : (afterCommand i v a s).rndTaken = s.rndTaken + randomWordsTaken i := rfl
@[simp] theorem afterCommand_draws : (afterCommand i v a s).draws = s.draws := rfl

/-- The receiver reads as the value written, every other register as before. -/
theorem readReg_afterCommand (q : Reg) :
    readReg q (afterCommand i v a s) = if writes i = some q then v else readReg q s := by
  rcases hw : writes i with - | ra
  · simp [afterCommand, readReg, hw]
  · have hregs : readReg q (afterCommand i v a s) = readReg q (writeReg ra v s) := by
      simp [afterCommand, readReg, hw]
    rw [hregs]
    by_cases hq : q = ra
    · simp [hq]
    · simp [readReg_writeReg_ne hq, Ne.symm hq]

/-- A register is constructed after a command when it was before or the command constructs it. -/
theorem get_constructed_afterCommand (q : Reg) :
    (afterCommand i v a s).constructed.get q = (decide (constructs i = some q) || s.constructed.get q) := by
  rcases hc : constructs i with - | ra
  · simp [afterCommand, hc]
  · simp [afterCommand, hc, get_set_constructed, eq_comm]

end

theorem responseTo_of_afterCommand {i : Instr} {v : Big} {a : Response} {s t : State}
    (h : exec i s = .next (afterCommand i v a t)) : responseTo i s = some a := by
  simp [responseTo, h]

/-! ### The rows of the tables -/

theorem constructs_eq_some_iff {i : Instr} {r : Reg} :
    constructs i = some r ↔ i = .load r ∨ i = .widen r ∨ i = .rand r := by
  cases i <;> simp [constructs]

theorem writes_of_constructs {i : Instr} {r : Reg} (h : constructs i = some r) : writes i = some r := by
  rcases constructs_eq_some_iff.mp h with rfl | rfl | rfl <;> rfl

/-- A command that writes a register without constructing it reads it, `10_state.md` R12, R19. -/
theorem mem_reads_of_writes {i : Instr} {r : Reg} (hw : writes i = some r) (hc : constructs i ≠ some r) : r ∈ reads i := by
  cases i <;> simp_all [writes, constructs, reads]

theorem randomWordsTaken_of_ne_rand {i : Instr} (h : ∀ r, i ≠ .rand r) : randomWordsTaken i = 0 := by
  cases i with
  | rand r => exact absurd rfl (h r)
  | _ => rfl

theorem randomWordsTaken_eq (i : Instr) : randomWordsTaken i = 0 ∨ randomWordsTaken i = 33 := by
  cases i with
  | rand => exact .inr rfl
  | _ => exact .inl rfl

end Sys2Proof.Machine
end

section
/-! What one step does, by the host's next move, and what performing the command on the ports leaves. -/

namespace Sys2Proof.Machine

theorem step_of_nil {s : State} (h : s.pending = []) : step s = .next s := by
  simp [step, nextMove, h, performMove]

theorem step_of_reset {s : State} {p : Option Transaction} {rest : List HostMove} (h : s.pending = .reset p :: rest) :
    step s = .next (takeReset p { s with pending := rest }) := by
  simp [step, nextMove, h, performMove]

theorem performPorts_of_ok {s : State} {i : Instr} (h : decode s.ports.cmd = .ok i) : performPorts s = exec i s := by
  simp [performPorts, h]

/-- Performing a command completes, and does the same whatever the host presents after it. -/
theorem performPorts_withProgram (ts : List Transaction) (s : State) :
    ∃ t, performPorts s = .next t ∧ performPorts (withProgram ts s) = .next (withProgram ts t) := by
  rcases hdec : decode s.ports.cmd with e | i
  · exact ⟨answer illegalResponse s, performPorts_of_error hdec, performPorts_of_error (s := withProgram ts s) hdec⟩
  · obtain ⟨v, a, -, hs, ht⟩ := exec_of_sameInputs (sameInputs_of_ports (i := i) (s := s) (t := withProgram ts s)
      (fun _ _ => rfl) rfl rfl)
    exact ⟨afterCommand i v a s, (performPorts_of_ok hdec).trans hs,
      (performPorts_of_ok (s := withProgram ts s) hdec).trans ht⟩

/-- Performing a command adds one legal response and takes no words or 33 from the randomness source. -/
theorem performPorts_observation {s t : State} (h : performPorts s = .next t) :
    ∃ a, legalResponse a = true ∧ t.answers = s.answers ++ [.response a] ∧
      (t.rndTaken = s.rndTaken ∨ t.rndTaken = s.rndTaken + 33) := by
  rcases performPorts_cases s with ⟨i, -, hexec⟩ | ⟨e, -, hill⟩
  · obtain ⟨v, a, hlegal, rfl⟩ := exec_next (hexec.symm.trans h)
    refine ⟨a, hlegal, rfl, ?_⟩
    rcases randomWordsTaken_eq i with hn | hn <;> simp [hn]
  · obtain rfl := takeIllegalCommand_next (hill.symm.trans h)
    exact ⟨illegalResponse, legalResponse_illegalResponse, rfl, .inl rfl⟩

/-- Performing a command unconstructs no register. -/
theorem performPorts_keeps_constructed {s t : State} (h : performPorts s = .next t) {r : Reg}
    (hr : s.constructed.get r = true) : t.constructed.get r = true := by
  rcases performPorts_cases s with ⟨i, -, hexec⟩ | ⟨e, -, hill⟩
  · obtain ⟨v, a, -, rfl⟩ := exec_next (hexec.symm.trans h)
    simp [get_constructed_afterCommand, hr]
  · obtain rfl := takeIllegalCommand_next (hill.symm.trans h)
    exact hr

end Sys2Proof.Machine
end

section
/-! Encoding, both ways, and the step of an encoded command (`30_encoding.md` sections 3 and 4). -/

namespace Sys2Proof

/-- The byte of a command passes the checks of `30_encoding.md` R37, by the family of `Laws/PerInstr.lean`. -/
theorem wellFormed_instr (i : Instr) : i.wellFormed = true := by
  cases i with
  | isodd ra => exact Laws.WellFormedFields.isodd ra
  | iseven ra => exact Laws.WellFormedFields.iseven ra
  | iszero ra => exact Laws.WellFormedFields.iszero ra
  | div2 ra => exact Laws.WellFormedFields.div2 ra
  | mul2 ra => exact Laws.WellFormedFields.mul2 ra
  | nbits ra => exact Laws.WellFormedFields.nbits ra
  | add ra rb => exact Laws.WellFormedFields.add ra rb
  | sub ra rb => exact Laws.WellFormedFields.sub ra rb
  | cmp ra rb => exact Laws.WellFormedFields.cmp ra rb
  | eq ra rb => exact Laws.WellFormedFields.eq ra rb
  | rand ra => exact Laws.WellFormedFields.rand ra
  | load ra => exact Laws.WellFormedFields.load ra
  | widen ra => exact Laws.WellFormedFields.widen ra
  | read ra => exact Laws.WellFormedFields.read ra

@[simp] theorem joinFields_splitFields (c : Command) : joinFields (splitFields c) = c := by
  apply BitVec.eq_of_toNat_eq
  have h := c.isLt
  simp only [toNat_joinFields, splitFields, BitVec.extractLsb'_toNat, Nat.shiftRight_eq_div_pow]
  omega

/-- A byte that decodes is well formed, so its command has its fields (`decode_wellFormed`). -/
theorem encode_of_decode {c : Command} {i : Instr} (h : decode c = .ok i) : encode i = c := by
  have hwf : (splitFields c).wellFormed = true := by
    by_contra hwf
    obtain ⟨e, herr⟩ := (decode_error_iff c).mpr hwf
    simp [h] at herr
  obtain ⟨j, hj, hfields⟩ := decode_wellFormed hwf
  obtain rfl : i = j := Except.ok.inj (h.symm.trans hj)
  rw [encode, hfields, joinFields_splitFields]

end Sys2Proof

namespace Sys2Proof.Machine

theorem commandOfTableWord_toNat (c : Command) : commandOfTableWord 8 c.toNat = c := by
  rw [commandOfTableWord, Nat.mod_eq_of_lt c.isLt, BitVec.ofNat_toNat, BitVec.setWidth_eq]

theorem decodeTableWord_toNat (c : Command) : decodeTableWord 8 c.toNat = (decode c).toOption := by
  rw [decodeTableWord, if_pos le_rfl]
  exact congrArg (fun b => (decode b).toOption) (commandOfTableWord_toNat c)

theorem decodeTableWord_encode (i : Instr) : decodeTableWord 8 (encode i).toNat = some i := by
  rw [decodeTableWord_toNat, decode_encode]
  rfl

theorem step_withFetchWord (s : State) (c : Command) :
    step (s.withFetchWord 8 c.toNat) = performPorts { s with ports := { s.ports with cmd := c } } := by
  rw [State.withFetchWord, commandOfTableWord_toNat, step_of_command (presentCommand_pending c s)]
  rfl

/-- Settles O13: a byte and its three fields are the same (`splitFields_joinFields`, `joinFields_splitFields`), and the
placed byte is the command that the step performs. -/
theorem encodedCommandsDecodeAndRun : Obligations.EncodedCommandsDecodeAndRun :=
  ⟨fun i => ⟨wellFormed_instr i, decode_encode i⟩, fun _ _ => encode_of_decode, fun i s =>
    ⟨decodeTableWord_encode i, (step_withFetchWord s (encode i)).trans (performPorts_of_ok (decode_encode i))⟩⟩

end Sys2Proof.Machine
end

section
/-! The observation of a run stays well formed (`20_memory.md` R25, R28). -/

namespace Sys2Proof.Machine

/-- One more legal response keeps the invariant, with no words taken or 33. -/
theorem observationWf_of_response {s t : State} {a : Response} (h : observationWf s) (hlegal : legalResponse a = true)
    (hanswers : t.answers = s.answers ++ [.response a])
    (hrnd : t.rndTaken = s.rndTaken ∨ t.rndTaken = s.rndTaken + 33) : observationWf t := by
  obtain ⟨hall, hmod, hle⟩ := h
  have hlen : t.answers.length = s.answers.length + 1 := by simp [hanswers]
  refine ⟨?_, by omega, by omega⟩
  rw [hanswers, List.all_append, hall]
  simpa [legalAnswer] using hlegal

/-- What stands on the ports during a reset is not constrained, and a reset takes no words. -/
theorem observationWf_takeReset {s : State} (h : observationWf s) (p : Option Transaction) :
    observationWf (takeReset p s) := by
  obtain ⟨hall, hmod, hle⟩ := h
  have hdropped : (droppedAnswers (s.draws + 1) p).all legalAnswer = true := by
    cases p <;> rfl
  refine ⟨?_, hmod, ?_⟩
  · rw [takeReset_answers, List.all_append, hall, hdropped]
    rfl
  · rw [takeReset_answers, takeReset_rndTaken, List.length_append]
    omega

/-- Settles O53, by the host's next move. -/
theorem stepKeepsTheObservationWellFormed : Obligations.StepKeepsTheObservationWellFormed := by
  intro s t hwf hstep
  rcases hpending : s.pending with - | ⟨tr | p, rest⟩
  · rw [step_of_nil hpending] at hstep
    cases hstep
    exact hwf
  · rw [step_of_command hpending] at hstep
    obtain ⟨a, hlegal, hanswers, hrnd⟩ := performPorts_observation hstep
    exact observationWf_of_response hwf hlegal hanswers hrnd
  · rw [step_of_reset hpending] at hstep
    cases hstep
    exact observationWf_takeReset hwf p

/-- Settles O54: nothing has been answered or taken. -/
theorem resetObservationIsWellFormed : Obligations.ResetObservationIsWellFormed :=
  ⟨rfl, rfl, Nat.le_refl 0⟩

end Sys2Proof.Machine
end

section
/-! The strict reading of `60_exceptions.md` R99: a strict step that goes on is the machine's step, and every register its
command reads is constructed. -/

namespace Sys2Proof.Machine

theorem unconstructedRead_eq_none_iff {i : Instr} {s : State} :
    unconstructedRead i s = none ↔ ∀ r ∈ reads i, s.constructed.get r = true := by
  simp [unconstructedRead]

theorem strictExec_of_constructed {i : Instr} {s : State} (h : ∀ r ∈ reads i, s.constructed.get r = true) :
    strictExec i s = exec i s := by
  rw [strictExec, unconstructedRead_eq_none_iff.mpr h]

theorem strictExec_of_unconstructed {i : Instr} {s : State} {r : Reg} (hr : r ∈ reads i)
    (hunc : s.constructed.get r = false) :
    ∃ q ∈ reads i, s.constructed.get q = false ∧ strictExec i s = .fault (.readOfUnconstructedRegister q) := by
  rcases hq : unconstructedRead i s with - | q
  · have := unconstructedRead_eq_none_iff.mp hq r hr
    simp [hunc] at this
  · exact ⟨q, List.mem_of_find?_eq_some hq, by simpa using List.find?_some hq, by rw [strictExec, hq]⟩

theorem strictExec_next {i : Instr} {s t : State} (h : strictExec i s = .next t) :
    (∀ r ∈ reads i, s.constructed.get r = true) ∧ exec i s = .next t := by
  have hreads : ∀ r ∈ reads i, s.constructed.get r = true := by
    intro r hr
    by_contra hunc
    obtain ⟨q, -, -, hfault⟩ := strictExec_of_unconstructed hr (Bool.eq_false_iff.mpr hunc)
    simp [hfault] at h
  exact ⟨hreads, (strictExec_of_constructed hreads).symm.trans h⟩

theorem strictPorts_of_ok {s : State} {i : Instr} (h : decode s.ports.cmd = .ok i) : strictPorts s = strictExec i s := by
  simp [strictPorts, h]

theorem strictPorts_of_error {s : State} {e : DecodeError} (h : decode s.ports.cmd = .error e) :
    strictPorts s = takeIllegalCommand s := by
  simp [strictPorts, h]

theorem strictPorts_next {s t : State} (h : strictPorts s = .next t) : performPorts s = .next t := by
  rcases hdec : decode s.ports.cmd with e | i
  · rw [performPorts_of_error hdec, ← strictPorts_of_error hdec, h]
  · obtain ⟨-, hexec⟩ := strictExec_next ((strictPorts_of_ok hdec).symm.trans h)
    rw [performPorts_of_ok hdec, hexec]

theorem strictStep_of_nil {s : State} (h : s.pending = []) : strictStep s = .next s := by
  simp [strictStep, nextMove, h]

theorem strictStep_of_reset {s : State} {p : Option Transaction} {rest : List HostMove}
    (h : s.pending = .reset p :: rest) : strictStep s = .next (takeReset p { s with pending := rest }) := by
  simp [strictStep, nextMove, h]

theorem strictStep_of_command {s : State} {t : Transaction} {rest : List HostMove} (h : s.pending = .command t :: rest) :
    strictStep s = strictPorts { s with pending := rest, ports := t } := by
  simp [strictStep, nextMove, h]

/-! ### Unconstructed registers are not written -/

theorem unconstructedUntouched_takeReset (p : Option Transaction) (s : State) : unconstructedUntouched (takeReset p s) :=
  fun r _ => unspecifiedRegs_get (s.draws + 1) r

/-- A command writes a register that it constructs or reads, and a register it reads is constructed. -/
theorem unconstructedUntouched_afterCommand {i : Instr} {s : State} (v : Big) (a : Response)
    (h : unconstructedUntouched s) (hreads : ∀ r ∈ reads i, s.constructed.get r = true) :
    unconstructedUntouched (afterCommand i v a s) := by
  intro r hr
  obtain ⟨hc, hunc⟩ : constructs i ≠ some r ∧ s.constructed.get r = false := by
    simpa [get_constructed_afterCommand] using hr
  have hw : writes i ≠ some r := fun hw => by
    have := hreads r (mem_reads_of_writes hw hc)
    simp [hunc] at this
  rw [readReg_afterCommand, if_neg hw, afterCommand_draws]
  exact h r hunc

theorem unconstructedUntouched_strictPorts {s t : State} (h : unconstructedUntouched s) (hnext : strictPorts s = .next t) :
    unconstructedUntouched t := by
  rcases hdec : decode s.ports.cmd with e | i
  · obtain rfl := takeIllegalCommand_next ((strictPorts_of_error hdec).symm.trans hnext)
    exact h
  · obtain ⟨hreads, hexec⟩ := strictExec_next ((strictPorts_of_ok hdec).symm.trans hnext)
    obtain ⟨v, a, -, rfl⟩ := exec_next hexec
    exact unconstructedUntouched_afterCommand v a h hreads

/-- Settles O57, by the host's next move. -/
theorem strictStepLeavesUnconstructedUntouched : Obligations.StrictStepLeavesUnconstructedUntouched := by
  intro s t h hstep
  rcases hpending : s.pending with - | ⟨tr | p, rest⟩
  · rw [strictStep_of_nil hpending] at hstep
    cases hstep
    exact h
  · rw [strictStep_of_command hpending] at hstep
    exact unconstructedUntouched_strictPorts (s := { s with pending := rest, ports := tr }) h hstep
  · rw [strictStep_of_reset hpending] at hstep
    cases hstep
    exact unconstructedUntouched_takeReset p _

/-- Settles O58. -/
theorem resetRegistersAreUnspecified : Obligations.ResetRegistersAreUnspecified :=
  ⟨fun r _ => unspecifiedRegs_get 0 r, noneConstructed_get⟩

/-! ### The strict reading and the machine -/

/-- Settles O55: the fault names the first unconstructed register that the command reads, and where nothing faults the two
readings are the same function. -/
theorem strictReadingFaultsOnUnconstructed : Obligations.StrictReadingFaultsOnUnconstructed := by
  refine ⟨fun i s r hr hunc => strictExec_of_unconstructed hr hunc, fun i s => strictExec_of_constructed,
    fun s t hstep => ?_⟩
  rcases hpending : s.pending with - | ⟨tr | p, rest⟩
  · rw [step_of_nil hpending, ← strictStep_of_nil hpending, hstep]
  · rw [step_of_command hpending]
    exact strictPorts_next ((strictStep_of_command hpending).symm.trans hstep)
  · rw [step_of_reset hpending, ← strictStep_of_reset hpending, hstep]

/-! ### Contents of unconstructed registers are not observed -/

/-- A command that reads constructed registers alone takes the same inputs from both states, so it writes the same value
and answers the same response. -/
theorem strictExec_of_agree {i : Instr} {s t s' : State} (h : agreeOnConstructed s t) (hnext : strictExec i s = .next s') :
    ∃ t', strictExec i t = .next t' ∧ agreeOnConstructed s' t' := by
  obtain ⟨hregs, hcons, hports, hpending, hanswers, hrnd, hdraws⟩ := h
  obtain ⟨hreads, hexec⟩ := strictExec_next hnext
  obtain ⟨v, a, -, hs, ht⟩ := exec_of_sameInputs (sameInputs_of_ports (i := i) (s := s) (t := t)
    (fun r hr => hregs r (hreads r hr)) (by rw [hports]) (by rw [hports]))
  obtain rfl := Host.Outcome.next.inj (hexec.symm.trans hs)
  refine ⟨afterCommand i v a t, (strictExec_of_constructed (hcons ▸ hreads)).trans ht, fun r hr => ?_, ?_, hports, hpending,
    congrArg (· ++ [Answer.response a]) hanswers, congrArg (· + randomWordsTaken i) hrnd, hdraws⟩
  · rw [readReg_afterCommand, readReg_afterCommand]
    by_cases hw : writes i = some r
    · rw [if_pos hw, if_pos hw]
    · have hc : constructs i ≠ some r := fun hc => hw (writes_of_constructs hc)
      rw [if_neg hw, if_neg hw]
      exact hregs r (by simpa [get_constructed_afterCommand, hc] using hr)
  · simp only [afterCommand, hcons]

theorem strictPorts_of_agree {s t s' : State} (h : agreeOnConstructed s t) (hnext : strictPorts s = .next s') :
    ∃ t', strictPorts t = .next t' ∧ agreeOnConstructed s' t' := by
  obtain ⟨hregs, hcons, hports, hpending, hanswers, hrnd, hdraws⟩ := id h
  rcases hdec : decode s.ports.cmd with e | i
  · obtain rfl := takeIllegalCommand_next ((strictPorts_of_error hdec).symm.trans hnext)
    exact ⟨_, strictPorts_of_error (hports ▸ hdec), hregs, hcons, hports, hpending,
      congrArg (· ++ [Answer.response illegalResponse]) hanswers, hrnd, hdraws⟩
  · rw [strictPorts_of_ok (hports ▸ hdec)]
    exact strictExec_of_agree h ((strictPorts_of_ok hdec).symm.trans hnext)

theorem strictStep_of_agree {s t s' : State} (h : agreeOnConstructed s t) (hnext : strictStep s = .next s') :
    ∃ t', strictStep t = .next t' ∧ agreeOnConstructed s' t' := by
  obtain ⟨hregs, hcons, hports, hpend, hanswers, hrnd, hdraws⟩ := id h
  rcases hpending : s.pending with - | ⟨tr | p, rest⟩
  · rw [strictStep_of_nil hpending] at hnext
    cases hnext
    exact ⟨t, strictStep_of_nil (hpend ▸ hpending), h⟩
  · rw [strictStep_of_command hpending] at hnext
    rw [strictStep_of_command (hpend ▸ hpending)]
    exact strictPorts_of_agree (s := { s with pending := rest, ports := tr })
      ⟨hregs, hcons, rfl, rfl, hanswers, hrnd, hdraws⟩ hnext
  · rw [strictStep_of_reset hpending] at hnext
    cases hnext
    refine ⟨_, strictStep_of_reset (hpend ▸ hpending), fun r _ => ?_, rfl, hports, rfl, ?_, hrnd, ?_⟩
    · simp only [readReg, takeReset_regs, hdraws]
    · simp only [takeReset_answers, hanswers, hdraws]
    · simp only [takeReset_draws, hdraws]

/-- Settles O56, by induction on the number of steps. -/
theorem unconstructedContentsAreNeverObserved : Obligations.UnconstructedContentsAreNeverObserved := by
  intro k
  induction k with
  | zero =>
    intro s t s' h hrun
    cases hrun
    exact ⟨t, rfl, h⟩
  | succ k ih =>
    intro s t s' h hrun
    rcases hstep : strictStep s with s1 | f | r
    · obtain ⟨t1, hstep', h1⟩ := strictStep_of_agree h hstep
      simp only [strictRun, hstep] at hrun
      simp only [strictRun, hstep']
      exact ih s1 t1 s' h1 hrun
    · simp [strictRun, hstep] at hrun
    · simp [strictRun, hstep] at hrun

end Sys2Proof.Machine
end

section
/-! What the commands and the steps do as a whole: the frame of a command, the inputs it depends on, what constructs a
register, and the steps that are not a command. -/

namespace Sys2Proof.Machine

/-! ### Every command -/

/-- Settles O47: each part of the state after a command (`afterCommand`), by the rows of the tables. -/
theorem commandsChangeOnlyTheReceiver : Obligations.CommandsChangeOnlyTheReceiver := by
  intro i s t hexec
  obtain ⟨v, a, -, rfl⟩ := exec_next hexec
  refine ⟨fun r hw => ?_, fun r hc => ?_, fun r hi => ?_, fun hi => ?_, rfl, rfl, rfl, a, rfl⟩
  · rw [readReg_afterCommand, if_neg hw]
  · simp [get_constructed_afterCommand, hc]
  · rw [afterCommand_rndTaken, hi]
    rfl
  · rw [afterCommand_rndTaken, randomWordsTaken_of_ne_rand hi, Nat.add_zero]

/-- Settles O48: two states that agree on the registers read and on the data ports agree on the command's inputs. -/
theorem commandsReadOnlyWhatTheyName : Obligations.CommandsReadOnlyWhatTheyName := by
  intro i s t s' t' hregs hdin hrnd hs ht
  obtain ⟨v, a, -, hs', ht'⟩ := exec_of_sameInputs (sameInputs_of_ports hregs hdin hrnd)
  obtain rfl := Host.Outcome.next.inj (hs.symm.trans hs')
  obtain rfl := Host.Outcome.next.inj (ht.symm.trans ht')
  refine ⟨(responseTo_of_afterCommand hs).trans (responseTo_of_afterCommand ht).symm, fun r hw => ?_⟩
  rw [readReg_afterCommand, readReg_afterCommand, if_pos hw, if_pos hw]

/-- Other values on the ports, where they leave the command's inputs as they are, leave its effect as it is. -/
theorem exec_with_ports {i : Instr} {s : State} {q : Transaction} (h : SameInputs i s { s with ports := q }) :
    ∃ t, exec i s = .next t ∧ exec i { s with ports := q } = .next { t with ports := q } := by
  obtain ⟨v, a, -, hs, hq⟩ := exec_of_sameInputs h
  exact ⟨_, hs, hq⟩

/-- Settles O49: in each case the operand that the command takes from a data port is the same. -/
theorem dataPortsAreReadByTheirCommands : Obligations.DataPortsAreReadByTheirCommands := by
  refine fun i s p => ⟨fun hi => exec_with_ports ?_, fun hi => exec_with_ports ?_, fun r hi hlow => exec_with_ports ?_⟩
  · exact ⟨fun _ _ => rfl, fun r hr => absurd hr (hi r).1, fun r hr => absurd hr (hi r).2, fun _ _ => rfl⟩
  · exact ⟨fun _ _ => rfl, fun _ _ => rfl, fun _ _ => rfl, fun r hr => absurd hr (hi r)⟩
  · exact ⟨fun _ _ => rfl, fun q hq => by simp [hi] at hq, fun _ _ => hlow.symm, fun _ _ => rfl⟩

/-- Settles O18: a command unconstructs no register, nor does an illegal one, nor an idle step. -/
theorem whatConstructsARegister : Obligations.WhatConstructsARegister := by
  refine ⟨fun i s t r hexec => ?_, fun s t r hstep hs ht => ?_, fun s t p rest r hpending hstep => ?_, noneConstructed_get⟩
  · obtain ⟨v, a, -, rfl⟩ := exec_next hexec
    rw [get_constructed_afterCommand, Bool.or_eq_true, decide_eq_true_iff, constructs_eq_some_iff, or_comm]
  · rcases hpending : s.pending with - | ⟨tr | p, rest⟩
    · rw [step_of_nil hpending] at hstep
      cases hstep
      simp [hs] at ht
    · rw [step_of_command hpending] at hstep
      have := performPorts_keeps_constructed hstep hs
      simp [ht] at this
    · exact ⟨p, rest, rfl⟩
  · rw [step_of_reset hpending] at hstep
    cases hstep
    exact noneConstructed_get r

/-! ### Every step -/

theorem performPorts_completes (s : State) : ∃ t, performPorts s = .next t := by
  obtain ⟨t, hnext, -⟩ := performPorts_withProgram [] s
  exact ⟨t, hnext⟩

/-- Settles O20, for a step by the host's next move. -/
theorem noCommandCanFail : Obligations.NoCommandCanFail := by
  refine ⟨fun i s => ?_, fun s => ?_⟩
  · obtain ⟨v, a, -, hnext⟩ := exec_eq_afterCommand i s
    exact ⟨_, hnext⟩
  · rcases hpending : s.pending with - | ⟨tr | p, rest⟩
    · exact ⟨s, step_of_nil hpending⟩
    · rw [step_of_command hpending]
      exact performPorts_completes _
    · exact ⟨_, step_of_reset hpending⟩

/-- Settles O15. -/
theorem stepRunsTheDecodedCommand : Obligations.StepRunsTheDecodedCommand := by
  intro s t rest i hpending hdec
  rw [step_of_command hpending, performPorts_of_ok hdec]

theorem droppedAnswers_eq (draw : Nat) (p : Option Transaction) :
    droppedAnswers draw p = if p.isSome then [.unspecified (Config.droppedResponse draw)] else [] := by
  cases p <;> rfl

/-- Settles O17. -/
theorem resetEventWins : Obligations.ResetEventWins := by
  intro s p rest hpending
  rw [step_of_reset hpending, takeReset, droppedAnswers_eq]
  rfl

/-- Settles O19. -/
theorem idleStepHoldsTheState : Obligations.IdleStepHoldsTheState :=
  fun _ => step_of_nil

theorem writeReg_writeReg (r : Reg) (v w : Big) (s : State) : writeReg r w (writeReg r v s) = writeReg r w s := by
  simp [writeReg, Vector.set_set]

/-- Settles O46. -/
theorem registersAreIndependent : Obligations.RegistersAreIndependent := fun r _ v w s =>
  ⟨readReg_writeReg_same r v s, fun hq => readReg_writeReg_ne hq v s, writeReg_writeReg r v w s, writeReg_readReg r s⟩

end Sys2Proof.Machine
end

section
/-! Lists of transactions (`20_memory.md` R31, `70_reset_and_hazards.md` R109), by induction on the list: one transaction
completes and adds one legal response, whatever the host presents later. -/

namespace Sys2Proof.Machine

theorem performAll_cons {t : Transaction} {s s1 : State} (ts : List Transaction)
    (h : performTransaction t s = .next s1) : performAll (t :: ts) s = performAll ts s1 := by
  simp [performAll, h]

/-- The first step of a placed program performs its first transaction and leaves the rest placed. -/
theorem step_withProgram_cons (t : Transaction) (ts : List Transaction) (s : State) :
    ∃ s1, performTransaction t s = .next s1 ∧ step (withProgram (t :: ts) s) = .next (withProgram ts s1) := by
  obtain ⟨s1, hone, hplaced⟩ := performPorts_withProgram ts { s with ports := t }
  exact ⟨s1, hone, (step_of_command (withProgram_pending (t :: ts) s)).trans hplaced⟩

/-- Settles O51. -/
theorem runIsTheFoldOfItsCommands : Obligations.RunIsTheFoldOfItsCommands := by
  intro ts
  induction ts with
  | nil => exact fun s => ⟨⟨s, rfl⟩, rfl⟩
  | cons t ts ih =>
    intro s
    obtain ⟨s1, hone, hstep⟩ := step_withProgram_cons t ts s
    rw [performAll_cons ts hone]
    obtain ⟨hcompletes, hrun⟩ := ih s1
    have hfirst : core.run (ts.length + 1) (withProgram (t :: ts) s) = core.run ts.length (withProgram ts s1) :=
      run_of_next core ts.length hstep
    exact ⟨hcompletes, hfirst.trans hrun⟩

/-- Settles O52. -/
theorem everyTransactionIsAnsweredOnce : Obligations.EveryTransactionIsAnsweredOnce := by
  intro ts
  induction ts with
  | nil =>
    intro s t hall
    cases hall
    exact ⟨[], rfl, by simp, List.forall_mem_nil _⟩
  | cons t ts ih =>
    intro s u hall
    obtain ⟨s1, hone, -⟩ := step_withProgram_cons t ts s
    obtain ⟨a, hlegal, hanswer, -⟩ := performPorts_observation hone
    obtain ⟨rs, hlen, hanswers, hrs⟩ := ih s1 u ((performAll_cons ts hone).symm.trans hall)
    refine ⟨a :: rs, by simp [hlen], by simp [hanswers, hanswer], ?_⟩
    simpa [hlegal] using hrs

end Sys2Proof.Machine
end

section
/-! Values, responses and command bytes as numbers and bits (`00_scope.md` R7, R8, `20_memory.md` R25, `30_encoding.md` R38,
R39). -/

namespace Sys2Proof.Machine

theorem toNat_get_big (n : Nat) (i : Fin 33) : ((big n).get i).toNat = n / 2 ^ (64 * i.val) % 2 ^ 64 := by
  rw [get_eq_toList]
  simp [big]

/-- Settles O6: both directions keep the number. -/
theorem valueAndNumberCorrespond : Obligations.ValueAndNumberCorrespond := by
  refine ⟨fun v => ?_, val_lt, toNat_get_big, big_val, val_big⟩
  simp only [get_eq_toList]
  exact valLimbs_eq_sum v.toList 33 (by simp)

/-- Settles O7. -/
theorem bitNumbering : Obligations.BitNumbering := fun v i j =>
  ⟨bitOf_limb v i j, (testBit_val v _).trans (bitOf_limb v i j)⟩

/-- Settles O9: a field of a concatenation. -/
theorem responsePacking : Obligations.ResponsePacking := by
  rintro ⟨ill, flag, ord, nb, dout⟩
  refine ⟨?_, ?_, ?_, ?_⟩
  · simp only [packResp, BitVec.getLsbD_append]
    simp
  · simp only [packResp, BitVec.getLsbD_append]
    simp
  · exact (BitVec.extractLsb'_append_eq_of_le le_rfl).trans BitVec.extractLsb'_append_eq_right
  · exact BitVec.extractLsb'_append_eq_right

end Sys2Proof.Machine

namespace Sys2Proof

/-- The match and mask columns cover a byte by the row of the command it decodes to and by no other row; a table of 256
bytes. -/
theorem mnemonicsCovering_eq (c : Command) : mnemonicsCovering c = (decode c).toOption.toList.map mnemonic := by
  revert c
  decide +kernel

/-- Settles O11. -/
theorem matchAndMaskAgreeWithDecoder : Obligations.MatchAndMaskAgreeWithDecoder := by
  refine ⟨rfl, fun c i hdec => ?_, fun c e hdec => ?_⟩
  · rw [mnemonicsCovering_eq, hdec]
    rfl
  · rw [mnemonicsCovering_eq, hdec]
    rfl

/-- Settles O12: the byte is its three fields as one number. -/
theorem commandByteFormula : Obligations.CommandByteFormula := fun _ _ =>
  ⟨toNat_encode_formatU 0x0#4 rfl, toNat_encode_formatU 0x1#4 rfl, toNat_encode_formatU 0x2#4 rfl,
    toNat_encode_formatU 0x3#4 rfl, toNat_encode_formatU 0x4#4 rfl, toNat_encode_formatU 0x5#4 rfl,
    toNat_encode_formatB 0x6#4 rfl, toNat_encode_formatB 0x7#4 rfl, toNat_encode_formatB 0x8#4 rfl,
    toNat_encode_formatB 0x9#4 rfl, toNat_encode_formatU 0xA#4 rfl, toNat_encode_formatU 0xB#4 rfl,
    toNat_encode_formatU 0xC#4 rfl, toNat_encode_formatU 0xD#4 rfl⟩

/-- Settles O14: each word is the byte of the command the spec names for it. -/
theorem sampleWordsDecode : Obligations.SampleWordsDecode :=
  ⟨decode_encode (.isodd 3), decode_encode (.iseven 1), decode_encode (.iszero 2), decode_encode (.div2 3),
    decode_encode (.mul2 1), decode_encode (.nbits 2), decode_encode (.add 0 1), decode_encode (.sub 3 2),
    decode_encode (.cmp 1 0), decode_encode (.eq 2 3), decode_encode (.rand 2), decode_encode (.load 1),
    decode_encode (.widen 0), decode_encode (.read 3)⟩

end Sys2Proof
end

section
/-! The headroom limb, limb 32, is an ordinary limb (`10_state.md` R13): it is 0 exactly when the number is below `2^2048`,
and the closed forms of the commands cross that bound both ways. -/

namespace Sys2Proof.Machine

theorem headroom_eq_zero_iff (v : Big) : v.get 32 = 0#64 ↔ val v < 2 ^ 2048 := by
  have hpow : 2 ^ 2112 = 2 ^ 2048 * 2 ^ 64 := by rw [← pow_add]
  have hquot : val v / 2 ^ 2048 < 2 ^ 64 := Nat.div_lt_of_lt_mul (by rw [← hpow]; exact val_lt v)
  have hlimb : (v.get 32).toNat = val v / 2 ^ 2048 := by
    have hexp : 64 * (32 : Fin 33).val = 2048 := rfl
    rw [← Nat.mod_eq_of_lt hquot, ← hexp, ← toNat_get_big, big_val]
  rw [← BitVec.toNat_inj, hlimb, BitVec.toNat_zero, Nat.div_eq_zero_iff_lt (by positivity)]

/-! ### The numbers on both sides of the bound -/

theorem headroom_big_of_lt {n : Nat} (h : n < 2 ^ 2048) : (big n).get 32 = 0#64 := by
  have hfits : n < 2 ^ 2112 := h.trans (pow_lt_pow_right₀ one_lt_two (by decide))
  rw [headroom_eq_zero_iff, val_big n hfits]
  exact h

theorem headroom_ne_zero_iff (v : Big) : v.get 32 ≠ 0#64 ↔ 2 ^ 2048 ≤ val v :=
  (headroom_eq_zero_iff v).not.trans not_lt

theorem val_big_two_pow {k : Nat} (h : k < 2112) : val (big (2 ^ k)) = 2 ^ k :=
  val_big _ (pow_lt_pow_right₀ one_lt_two h)

theorem headroom_big_two_pow_2047 : (big (2 ^ 2047)).get 32 = 0#64 :=
  headroom_big_of_lt (pow_lt_pow_right₀ one_lt_two (by decide))

theorem headroom_big_two_pow_2048 : (big (2 ^ 2048)).get 32 ≠ 0#64 := by
  rw [headroom_ne_zero_iff, val_big_two_pow (by decide)]

theorem val_double_two_pow_2047 : val (big (2 ^ 2047)) + val (big (2 ^ 2047)) = val (big (2 ^ 2048)) := by
  rw [val_big_two_pow (by decide), val_big_two_pow (by decide), ← two_mul, ← pow_succ']

/-- Without a carry out of bit 2111 the chain leaves the sum. -/
theorem chainBig_adc64_two_pow_2047 : chainBig adc64 (big (2 ^ 2047)) (big (2 ^ 2047)) = big (2 ^ 2048) := by
  have hlaw : val (big (2 ^ 2048)) + 2 ^ 2112 * false.toNat = val (big (2 ^ 2047)) + val (big (2 ^ 2047)) := by
    rw [Bool.toNat_false, Nat.mul_zero, Nat.add_zero, val_double_two_pow_2047]
  exact (chain_adc64_eq_of_law hlaw).1

theorem headroom_mul2Big_two_pow_2047 : (mul2Big (big (2 ^ 2047))).get 32 ≠ 0#64 := by
  have hval : val (mul2Big (big (2 ^ 2047))) = val (big (2 ^ 2048)) := by
    rw [val_mul2Big, two_mul, val_double_two_pow_2047, Nat.mod_eq_of_lt (val_lt _)]
  rw [val_inj hval]
  exact headroom_big_two_pow_2048

theorem headroom_div2Big_two_pow_2048 : (div2Big (big (2 ^ 2048))).get 32 = 0#64 := by
  have hval : val (div2Big (big (2 ^ 2048))) = val (big (2 ^ 2047)) := by
    rw [val_div2Big, ← val_double_two_pow_2047]
    omega
  rw [val_inj hval]
  exact headroom_big_two_pow_2047

/-- `0 - 1` borrows through every limb and leaves `2^2112 - 1`. -/
theorem headroom_chainBig_sbb64_zero_one : (chainBig sbb64 (big 0) (big 1)).get 32 ≠ 0#64 := by
  have hzero : val (big 0) = 0 := val_big 0 (by positivity)
  have hone : val (big 1) = 1 := val_big 1 (one_lt_pow₀ one_lt_two (by decide))
  have hout : chainOut sbb64 (big 0) (big 1) = true := (chainOut_sbb64_iff _ _).mpr (by rw [hzero, hone]; exact one_pos)
  have hlaw := val_chainBig_sbb64 (big 0) (big 1)
  rw [hout, hzero, hone, Bool.toNat_true] at hlaw
  have hlt : (2 : Int) ^ 2048 < 2 ^ 2112 := pow_lt_pow_right₀ one_lt_two (by decide)
  rw [headroom_ne_zero_iff]
  zify
  generalize (2 : Int) ^ 2112 = m at *
  generalize (2 : Int) ^ 2048 = n at *
  omega

/-! ### The commands -/

/-- A state whose registers `ra` and `rb` hold `v` and `w`. -/
def holding (ra rb : Reg) (v w : Big) : State :=
  writeReg ra v (writeReg rb w State.reset)

@[simp] theorem readReg_holding_left (ra rb : Reg) (v w : Big) : readReg ra (holding ra rb v w) = v :=
  readReg_writeReg_same ra v _

theorem readReg_holding_right {ra rb : Reg} (hne : ra ≠ rb) (v w : Big) : readReg rb (holding ra rb v w) = w := by
  rw [holding, readReg_writeReg_ne hne.symm, readReg_writeReg_same]

/-- Settles O50: `RAND` forces the limb to 0; `2^2047` doubled, by `MUL2` or by `ADD`, and `0 - 1` cross the bound
upwards, and `2^2048` halved crosses it downwards. -/
theorem headroomLimbIsOrdinary : Obligations.HeadroomLimbIsOrdinary := by
  refine ⟨fun ra s t hexec => ?_, fun ra => ⟨holding ra ra (big (2 ^ 2047)) (big 0), _, ?_, rfl, ?_⟩,
    fun ra => ⟨holding ra ra (big (2 ^ 2048)) (big 0), _, ?_, rfl, ?_⟩,
    fun ra rb hne => ⟨holding ra rb (big (2 ^ 2047)) (big (2 ^ 2047)), _, ?_, ?_, rfl, ?_⟩,
    fun ra rb hne => ⟨holding ra rb (big 0) (big 1), _, ?_, ?_, rfl, ?_⟩⟩
  · rw [construct_next hexec, readReg_answer, readReg_markConstructed, readReg_writeReg_same]
    exact get_randomBig_headroom _
  · rw [readReg_holding_left]
    exact headroom_big_two_pow_2047
  · rw [readReg_of_exec_mul2 rfl, readReg_holding_left]
    exact headroom_mul2Big_two_pow_2047
  · rw [readReg_holding_left]
    exact headroom_big_two_pow_2048
  · rw [readReg_of_exec_div2 rfl, readReg_holding_left]
    exact headroom_div2Big_two_pow_2048
  · rw [readReg_holding_left]
    exact headroom_big_two_pow_2047
  · rw [readReg_holding_right hne]
    exact headroom_big_two_pow_2047
  · rw [readReg_of_update rfl, readReg_holding_left, readReg_holding_right hne, chainBig_adc64_two_pow_2047]
    exact headroom_big_two_pow_2048
  · rw [readReg_holding_left]
    exact headroom_big_of_lt (by positivity)
  · rw [readReg_holding_right hne]
    exact headroom_big_of_lt (one_lt_pow₀ one_lt_two (by decide))
  · rw [readReg_of_update rfl, readReg_holding_left, readReg_holding_right hne]
    exact headroom_chainBig_sbb64_zero_one

end Sys2Proof.Machine
end
